-- ==== Sys2Proof/Word.lean ====
section
/-! DEFINITION. The two data widths of the machine and the names of its eight registers
(spec/00_scope.md R9, R11, R12; spec/10_state.md R22). -/

namespace Sys2Proof

/-- A 16-bit value: register, pc, address, immediate or memory word (R12). -/
abbrev Word := BitVec 16

/-- One byte of memory (R20). -/
abbrev Byte := BitVec 8

/-- The eight register names. An index is always a 3-bit field, so there are no others (R22, R23). -/
inductive Reg where
  | r0 | r1 | r2 | r3 | r4 | r5 | r6 | r7
  deriving DecidableEq, Repr

end Sys2Proof
end

