-- ==== Sys2Proof/Config.lean ====
section
/-! DEFINITION. The parameters the spec leaves open (spec/00_scope.md R10), each with every value the
spec allows and its reference value, and the free values of the two havoc settings
(spec/40_execution_cycle.md R110). -/

namespace Sys2Proof

/-- The 25 opcode mnemonics, the keys of the map OPC (spec/30_encoding.md R80). LI is not one of them:
it has no major opcode of its own (R83). -/
inductive Op where
  | add | sub | and | or | xor | not | mv | addi | lw | sw | slt | slti
  | sll | slli | srl | srli | sra | srai
  | bra | brz | brnz | brn | brc | brv | stop
  deriving DecidableEq, Repr

/-- Every opcode mnemonic, in the order of the table of R80. -/
def Op.all : List Op :=
  [.add, .sub, .and, .or, .xor, .not, .mv, .addi, .lw, .sw, .slt, .slti,
   .sll, .slli, .srl, .srli, .sra, .srai,
   .bra, .brz, .brnz, .brn, .brc, .brv, .stop]

/-- `OPC`: the major opcode `word[15:10]` of each mnemonic (R80; 92_eei_decisions.md D1). -/
structure Opc where
  add : BitVec 6
  sub : BitVec 6
  and : BitVec 6
  or : BitVec 6
  xor : BitVec 6
  not : BitVec 6
  mv : BitVec 6
  addi : BitVec 6
  lw : BitVec 6
  sw : BitVec 6
  slt : BitVec 6
  slti : BitVec 6
  sll : BitVec 6
  slli : BitVec 6
  srl : BitVec 6
  srli : BitVec 6
  sra : BitVec 6
  srai : BitVec 6
  bra : BitVec 6
  brz : BitVec 6
  brnz : BitVec 6
  brn : BitVec 6
  brc : BitVec 6
  brv : BitVec 6
  stop : BitVec 6
  deriving DecidableEq, Repr

/-- The reference assignment of R80. -/
def Opc.reference : Opc where
  add := 1
  sub := 2
  and := 3
  or := 4
  xor := 5
  not := 6
  mv := 7
  addi := 8
  lw := 9
  sw := 10
  slt := 11
  slti := 12
  sll := 13
  slli := 14
  srl := 15
  srli := 16
  sra := 17
  srai := 18
  bra := 19
  brz := 20
  brnz := 21
  brn := 22
  brc := 23
  brv := 24
  stop := 25

/-- The map itself: mnemonic to major opcode. -/
def Opc.code (o : Opc) : Op → BitVec 6
  | .add => o.add
  | .sub => o.sub
  | .and => o.and
  | .or => o.or
  | .xor => o.xor
  | .not => o.not
  | .mv => o.mv
  | .addi => o.addi
  | .lw => o.lw
  | .sw => o.sw
  | .slt => o.slt
  | .slti => o.slti
  | .sll => o.sll
  | .slli => o.slli
  | .srl => o.srl
  | .srli => o.srli
  | .sra => o.sra
  | .srai => o.srai
  | .bra => o.bra
  | .brz => o.brz
  | .brnz => o.brnz
  | .brn => o.brn
  | .brc => o.brc
  | .brv => o.brv
  | .stop => o.stop

/-- Some mnemonic has this major opcode; the others are unrecognized (R81). -/
def Opc.assigns (o : Opc) (c : BitVec 6) : Bool :=
  Op.all.any fun op => o.code op == c

/-- OPC is injective, as R10 and R80 require of it. -/
abbrev Opc.injective (o : Opc) : Prop :=
  ∀ a ∈ Op.all, ∀ b ∈ Op.all, o.code a = o.code b → a = b

/-- `P_SLTI_FORM`: where SLTI takes its immediate (D4). -/
inductive SltiForm where
  | imm16 | field3
  deriving DecidableEq, Repr

/-- `P_FLAGS_UNLISTED`: the flag effect of instructions whose row names no flag (D5). -/
inductive FlagsUnlisted where
  | preserve | havoc
  deriving DecidableEq, Repr

/-- `P_LOGIC_CV`: what AND, OR and XOR do to C and V (D6). -/
inductive LogicCv where
  | preserve | clear | havoc
  deriving DecidableEq, Repr

/-- `P_SUB_CARRY`: the meaning of C after SUB (D7). -/
inductive SubCarry where
  | borrow | carryOut
  deriving DecidableEq, Repr

/-- `P_SHAMT_MASK`: the mask on a register shift amount, 0xFFFF, 0x000F or 0x0007 (D8). -/
inductive ShamtMask where
  | full | low4 | low3
  deriving DecidableEq, Repr

/-- `P_STOP_PC`: the pc left by STOP (D11). -/
inductive StopPc where
  | advance | hold
  deriving DecidableEq, Repr

/-- The open parameters of spec/00_scope.md R10 that shape a step. INIT_REGS, INIT_FLAGS and IMAGE are
arguments of `Machine.State.launch`. -/
structure Params where
  opc : Opc
  sltiForm : SltiForm
  flagsUnlisted : FlagsUnlisted
  logicCv : LogicCv
  subCarry : SubCarry
  shamtMask : ShamtMask
  stopPc : StopPc
  deriving DecidableEq, Repr

/-- The reference value of every parameter (R10). -/
def Params.reference : Params where
  opc := Opc.reference
  sltiForm := .imm16
  flagsUnlisted := .preserve
  logicCv := .preserve
  subCarry := .borrow
  shamtMask := .full
  stopPc := .advance

/-- What the spec requires of a parameter setting: OPC is injective (R80). -/
abbrev Params.wf (p : Params) : Prop := p.opc.injective

/-- The comparand of SLTI as an operand: the following word, or the 3-bit rs2 field
(spec/43_compare_shift.md R173). -/
inductive SltiOperand where
  | imm16 (imm : Word)
  | field3 (k : BitVec 3)
  deriving DecidableEq, Repr

/-- The form an SLTI comparand has. -/
def SltiOperand.form : SltiOperand → SltiForm
  | .imm16 _ => .imm16
  | .field3 _ => .field3

/-- The free draws of the havoc settings (spec/40_execution_cycle.md R110): the n-th flag value drawn.
It has no body, so nothing can be proved of any draw. Log 4. -/
opaque Config.freeFlag : Nat → Bool

end Sys2Proof
end

