-- ==== Sys2Proof/Syntax.lean ====
section
/-! DEFINITION. The decoded instructions (spec/40_execution_cycle.md R105): one constructor per row of
spec/opcode_table.json, each with the operands its format uses (spec/30_encoding.md R76) and none of
the fields the format ignores (R79). -/

namespace Sys2Proof

/-- A decoded instruction. The immediate word of an extended instruction is one of its operands. -/
inductive Instr where
  -- spec/41_alu.md R125 to R133
  | add (rd rs1 rs2 : Reg)
  | sub (rd rs1 rs2 : Reg)
  | and (rd rs1 rs2 : Reg)
  | or (rd rs1 rs2 : Reg)
  | xor (rd rs1 rs2 : Reg)
  | not (rd rs1 : Reg)
  | mv (rd rs1 : Reg)
  | addi (rd rs1 : Reg) (imm : Word)
  /-- The ADDI words with rs1 = 0 (R83, R133). DESIGN CHOICE, safe: a constructor of its own because
  the table has a row for it; it acts as ADDI from r0. Log 8. -/
  | li (rd : Reg) (imm : Word)
  -- spec/42_load_store.md R151, R152
  | lw (rd rs1 : Reg) (imm : Word)
  | sw (rs1 rs2 : Reg) (imm : Word)
  -- spec/43_compare_shift.md R172 to R179
  | slt (rd rs1 rs2 : Reg)
  | slti (rd rs1 : Reg) (k : SltiOperand)
  | sll (rd rs1 rs2 : Reg)
  | slli (rd rs1 : Reg) (shamt : BitVec 3)
  | srl (rd rs1 rs2 : Reg)
  | srli (rd rs1 : Reg) (shamt : BitVec 3)
  | sra (rd rs1 rs2 : Reg)
  | srai (rd rs1 : Reg) (shamt : BitVec 3)
  -- spec/44_control.md R201 to R210
  | bra (imm : Word)
  | brz (imm : Word)
  | brnz (imm : Word)
  | brn (imm : Word)
  | brc (imm : Word)
  | brv (imm : Word)
  | stop
  /-- A word whose major opcode OPC gives to no mnemonic (R81, R210). It keeps that major opcode, so
  that the instruction can be encoded again. -/
  | unrecognized (op6 : BitVec 6)
  deriving DecidableEq, Repr

end Sys2Proof
end

