-- ==== Sys2Proof/Decode.lean ====
section
/-! DEFINITION. The decoder and the encoder (spec/30_encoding.md). The decoder of words is total and
never fails (R74); on a byte list it refuses, by name, only a list that ends too early. -/

namespace Sys2Proof

/-- The register a 3-bit field names. -/
def Reg.ofBits (b : BitVec 3) : Reg :=
  match b.toNat with
  | 0 => .r0
  | 1 => .r1
  | 2 => .r2
  | 3 => .r3
  | 4 => .r4
  | 5 => .r5
  | 6 => .r6
  | _ => .r7

/-- The 3-bit field that names a register. -/
def Reg.toBits : Reg → BitVec 3
  | .r0 => 0
  | .r1 => 1
  | .r2 => 2
  | .r3 => 3
  | .r4 => 4
  | .r5 => 5
  | .r6 => 6
  | .r7 => 7

/-- The decoder's four outputs (spec/10_state.md R40). -/
structure Fields where
  opcode : BitVec 7
  rd : BitVec 3
  rs1 : BitVec 3
  rs2 : BitVec 3
  deriving DecidableEq, Repr

/-- The field equations of R71, with the source's four mask literals (90_conflicts.md C1). -/
def decodeFields (w : Word) : Fields where
  opcode := ((w &&& 0xFD00#16) >>> 9).setWidth 7
  rd := ((w &&& 0x01C0#16) >>> 6).setWidth 3
  rs1 := ((w &&& 0x0038#16) >>> 3).setWidth 3
  rs2 := (w &&& 0x0007#16).setWidth 3

/-- The major opcode `op6 = opcode[6:1]` (R72). -/
def Fields.op6 (f : Fields) : BitVec 6 := (f.opcode >>> 1).setWidth 6

/-- `OPC⁻¹`: the mnemonic with this major opcode, if there is one (spec/40_execution_cycle.md R102). -/
def Opc.lookup (o : Opc) (c : BitVec 6) : Option Op :=
  Op.all.find? fun op => o.code op == c

/-- Which mnemonics are followed by an immediate word (R77). -/
def Op.extended (form : SltiForm) : Op → Bool
  | .addi | .lw | .sw | .bra | .brz | .brnz | .brn | .brc | .brv => true
  | .slti => form == .imm16
  | .add | .sub | .and | .or | .xor | .not | .mv | .slt => false
  | .sll | .slli | .srl | .srli | .sra | .srai | .stop => false

/-- An immediate word follows this instruction word: `len = 4` (R77, R102). An unrecognized word has
none. -/
def wordExtended (p : Params) (w : Word) : Bool :=
  match p.opc.lookup (decodeFields w).op6 with
  | some op => op.extended p.sltiForm
  | none => false

/-- The instruction a mnemonic and its fields make, over the immediate word `imm`, which only the
extended formats use (R76, R78). -/
def buildInstr (form : SltiForm) (op : Op) (f : Fields) (imm : Word) : Instr :=
  let rd := Reg.ofBits f.rd
  let rs1 := Reg.ofBits f.rs1
  let rs2 := Reg.ofBits f.rs2
  match op with
  | .add => .add rd rs1 rs2
  | .sub => .sub rd rs1 rs2
  | .and => .and rd rs1 rs2
  | .or => .or rd rs1 rs2
  | .xor => .xor rd rs1 rs2
  | .not => .not rd rs1
  | .mv => .mv rd rs1
  | .addi => if rs1 = .r0 then .li rd imm else .addi rd rs1 imm
  | .lw => .lw rd rs1 imm
  | .sw => .sw rs1 rs2 imm
  | .slt => .slt rd rs1 rs2
  | .slti =>
    match form with
    | .imm16 => .slti rd rs1 (.imm16 imm)
    | .field3 => .slti rd rs1 (.field3 f.rs2)
  | .sll => .sll rd rs1 rs2
  | .slli => .slli rd rs1 f.rs2
  | .srl => .srl rd rs1 rs2
  | .srli => .srli rd rs1 f.rs2
  | .sra => .sra rd rs1 rs2
  | .srai => .srai rd rs1 f.rs2
  | .bra => .bra imm
  | .brz => .brz imm
  | .brnz => .brnz imm
  | .brn => .brn imm
  | .brc => .brc imm
  | .brv => .brv imm
  | .stop => .stop

/-- The decoder: instruction word and following word to instruction (R71, R74, R81; R102). -/
def decodeWords (p : Params) (w imm : Word) : Instr :=
  match p.opc.lookup (decodeFields w).op6 with
  | some op => buildInstr p.sltiForm op (decodeFields w) imm
  | none => .unrecognized (decodeFields w).op6

/-- Why a byte list holds no instruction: it ends inside the instruction word, or inside the
immediate word of an extended instruction. Memory never ends, so a step meets neither. DESIGN CHOICE,
safe: the names are the model's own. Log 18. -/
inductive DecodeError where
  | truncatedWord
  | truncatedImmediate
  deriving DecidableEq, Repr

/-- Decoding a byte list, big-endian (R70, R54): the instruction and the bytes after it. -/
def decode (p : Params) : List Byte → Except DecodeError (Instr × List Byte)
  | hi :: lo :: rest =>
    if wordExtended p (hi ++ lo) then
      match rest with
      | ihi :: ilo :: rest' => .ok (decodeWords p (hi ++ lo) (ihi ++ ilo), rest')
      | _ => .error .truncatedImmediate
    else .ok (decodeWords p (hi ++ lo) 0, rest)
  | _ => .error .truncatedWord

/-- The two bytes of a word as they lie in memory: high byte first (spec/20_memory.md R50). -/
def Word.bytes (w : Word) : List Byte := [w.extractLsb' 8 8, w.extractLsb' 0 8]

/-- Words as bytes in memory order. -/
def wordsToBytes (ws : List Word) : List Byte := ws.flatMap Word.bytes

/-- A word of the layout of R73, bit 9 emitted as 0 (R75; 92_eei_decisions.md D2). -/
def packWord (op6 : BitVec 6) (rd rs1 rs2 : BitVec 3) : Word := op6 ++ 0#1 ++ rd ++ rs1 ++ rs2

/-- The words of an instruction; ignored fields are emitted as 0 (R75, R76, R79). -/
def encode (p : Params) : Instr → List Word
  | .add rd rs1 rs2 => [packWord p.opc.add rd.toBits rs1.toBits rs2.toBits]
  | .sub rd rs1 rs2 => [packWord p.opc.sub rd.toBits rs1.toBits rs2.toBits]
  | .and rd rs1 rs2 => [packWord p.opc.and rd.toBits rs1.toBits rs2.toBits]
  | .or rd rs1 rs2 => [packWord p.opc.or rd.toBits rs1.toBits rs2.toBits]
  | .xor rd rs1 rs2 => [packWord p.opc.xor rd.toBits rs1.toBits rs2.toBits]
  | .not rd rs1 => [packWord p.opc.not rd.toBits rs1.toBits 0]
  | .mv rd rs1 => [packWord p.opc.mv rd.toBits rs1.toBits 0]
  | .addi rd rs1 imm => [packWord p.opc.addi rd.toBits rs1.toBits 0, imm]
  | .li rd imm => [packWord p.opc.addi rd.toBits 0 0, imm]
  | .lw rd rs1 imm => [packWord p.opc.lw rd.toBits rs1.toBits 0, imm]
  | .sw rs1 rs2 imm => [packWord p.opc.sw 0 rs1.toBits rs2.toBits, imm]
  | .slt rd rs1 rs2 => [packWord p.opc.slt rd.toBits rs1.toBits rs2.toBits]
  | .slti rd rs1 (.imm16 imm) => [packWord p.opc.slti rd.toBits rs1.toBits 0, imm]
  | .slti rd rs1 (.field3 k) => [packWord p.opc.slti rd.toBits rs1.toBits k]
  | .sll rd rs1 rs2 => [packWord p.opc.sll rd.toBits rs1.toBits rs2.toBits]
  | .slli rd rs1 shamt => [packWord p.opc.slli rd.toBits rs1.toBits shamt]
  | .srl rd rs1 rs2 => [packWord p.opc.srl rd.toBits rs1.toBits rs2.toBits]
  | .srli rd rs1 shamt => [packWord p.opc.srli rd.toBits rs1.toBits shamt]
  | .sra rd rs1 rs2 => [packWord p.opc.sra rd.toBits rs1.toBits rs2.toBits]
  | .srai rd rs1 shamt => [packWord p.opc.srai rd.toBits rs1.toBits shamt]
  | .bra imm => [packWord p.opc.bra 0 0 0, imm]
  | .brz imm => [packWord p.opc.brz 0 0 0, imm]
  | .brnz imm => [packWord p.opc.brnz 0 0 0, imm]
  | .brn imm => [packWord p.opc.brn 0 0 0, imm]
  | .brc imm => [packWord p.opc.brc 0 0 0, imm]
  | .brv imm => [packWord p.opc.brv 0 0 0, imm]
  | .stop => [packWord p.opc.stop 0 0 0]
  | .unrecognized op6 => [packWord op6 0 0 0]

/-- The instruction's length in bytes: 2, or 4 when an immediate word follows (R77). -/
def Instr.length (i : Instr) : Word :=
  match i with
  | .addi _ _ _ | .li _ _ | .lw _ _ _ | .sw _ _ _ | .slti _ _ (.imm16 _) => 4
  | .bra _ | .brz _ | .brnz _ | .brn _ | .brc _ | .brv _ => 4
  | .add _ _ _ | .sub _ _ _ | .and _ _ _ | .or _ _ _ | .xor _ _ _ | .not _ _ | .mv _ _ => 2
  | .slt _ _ _ | .slti _ _ (.field3 _) | .sll _ _ _ | .slli _ _ _ | .srl _ _ _ | .srli _ _ _ => 2
  | .sra _ _ _ | .srai _ _ _ | .stop | .unrecognized _ => 2

/-- The first word of an instruction whose bits the opcode table numbers from `w`, the bits above
`nbits` zero. -/
def tableFirstWord (nbits w : Nat) : Word := BitVec.ofNat 16 (w % 2 ^ nbits)

/-- The second word of the same: bits 31 to 16. -/
def tableSecondWord (nbits w : Nat) : Word := BitVec.ofNat 16 (w % 2 ^ nbits / 65536)

/-- The instruction the decoder reads from the opcode table's numbering of its bits, under the
reference parameters the table is written with. -/
def decodeTableWord (nbits w : Nat) : Option Instr :=
  match decode Params.reference
      (wordsToBytes [tableFirstWord nbits w, tableSecondWord nbits w]) with
  | .ok (i, _) => some i
  | .error _ => none

end Sys2Proof
end

