-- ==== Sys2Proof/Machine/State.lean ====
section
/-! DEFINITION. The machine's state (spec/10_state.md R20), the state after reset (R47), and the
reasons a step or a host-side read can stop. -/

namespace Sys2Proof.Machine

/-- Registers 1 to 7. Register 0 is not stored (R20, R22). -/
structure Regs where
  r1 : Word
  r2 : Word
  r3 : Word
  r4 : Word
  r5 : Word
  r6 : Word
  r7 : Word
  deriving DecidableEq, Repr

/-- The four condition codes (R20, R27). -/
structure Flags where
  z : Bool
  c : Bool
  n : Bool
  v : Bool
  deriving DecidableEq, Repr

/-- The Control Unit's state (R34). -/
inductive RunState where
  | running | halted
  deriving DecidableEq, Repr

/-- The state. The first five fields are the whole architectural state of R20. `params` and `draws`
are the model's own: the parameters R10 makes an argument of the model, which no step writes (log 3),
and how many free flag values the havoc settings have used (log 4). -/
structure State where
  regs : Regs
  flags : Flags
  pc : Word
  /-- Memory, sparse: (address, byte) pairs, addresses rising, no zero byte listed. An address not
  listed holds 0x00, the spec's reset contents (R47). -/
  mem : List Host.Cell
  run : RunState
  params : Params
  draws : Nat
  deriving DecidableEq, Repr

/-- Why the machine stops. -/
inductive Fault where
  /-- Raised by `step` when run = Halted, where the CORE has no step (R34; 40_execution_cycle.md R100).
  It is the terminal state that STOP leads to, not an error (60_exceptions.md R232). DESIGN CHOICE,
  safe. Log 5. -/
  | halted
  deriving DecidableEq, Repr

/-- Why something is refused. -/
inductive Refusal where
  /-- An instruction without a meaning. No arm of `exec` answers it: every instruction has its
  meaning. Safe. -/
  | notModelled (mnemonic : String)
  /-- Raised by the host-side `inspectRegister` for an index above 7 (60_exceptions.md R231); no
  instruction can raise it (R23). Safe. Log 11. -/
  | registerIndexOutOfRange (index : Nat)
  deriving DecidableEq, Repr

/-- DESIGN CHOICE, unsafe: the spec gives r1 to r7 no value at run start (R47, D12). Log 1. -/
def Regs.reset : Regs := ⟨0, 0, 0, 0, 0, 0, 0⟩

/-- DESIGN CHOICE, unsafe: the spec gives the flags no value at run start (R47, D13). Log 2. -/
def Flags.reset : Flags := ⟨false, false, false, false⟩

/-- The machine right after reset, with no image loaded (R47, R250): pc 0x0000, Running, memory all
zero; the parameters at the spec's reference values (R10). -/
def State.reset : State where
  regs := Regs.reset
  flags := Flags.reset
  pc := 0
  mem := []
  run := .running
  params := Params.reference
  draws := 0

end Sys2Proof.Machine
end

