-- ==== Sys2Proof/Machine/Ops.lean ====
section
/-! DEFINITION. The named operations on memory and registers, the fetch of an instruction, and the
commit that ends every instruction. There is no operation that takes an exception or returns from
one: the machine has neither (spec/60_exceptions.md R230, R235, R236). -/

namespace Sys2Proof.Machine

/-- The outcome of a meaning. -/
abbrev Result := Host.Outcome State Fault Refusal

-- ## Bytes and words of memory (spec/20_memory.md)

/-- What an address that is not listed holds: the zero fill of spec/10_state.md R47. -/
def unlistedByte : Byte := 0

/-- The byte at an address. -/
def Memory.readByte (m : List Host.Cell) (a : Nat) : Byte :=
  match m with
  | [] => unlistedByte
  | c :: rest => if c.1 = a then c.2 else Memory.readByte rest a

/-- Put a cell before the first cell with a higher address. -/
def Memory.insert (a : Nat) (v : Byte) (m : List Host.Cell) : List Host.Cell :=
  match m with
  | [] => [(a, v)]
  | c :: rest => if a < c.1 then (a, v) :: c :: rest else c :: Memory.insert a v rest

/-- Store a byte, keeping the list canonical: a byte an unlisted address holds is not listed. -/
def Memory.writeByte (m : List Host.Cell) (a : Nat) (v : Byte) : List Host.Cell :=
  if v = unlistedByte then m.filter (fun c => c.1 != a)
  else Memory.insert a v (m.filter (fun c => c.1 != a))

/-- The canonical form: addresses strictly rising and in the address space (R59), no listed byte equal
to what an unlisted address holds. -/
abbrev Memory.wf (m : List Host.Cell) : Prop :=
  m.Pairwise (fun c d => c.1 < d.1) ∧ ∀ c ∈ m, c.1 < 65536 ∧ c.2 ≠ unlistedByte

/-- Address bit 0 forced to 0 (R51). -/
def align (a : Word) : Word := a &&& 0xFFFE#16

/-- The word at an address, high byte at the lower address: `MemRead(addr, 2)` (R50). -/
def Memory.readWord (m : List Host.Cell) (a : Word) : Word :=
  Memory.readByte m (align a).toNat ++ Memory.readByte m (align a + 1).toNat

/-- Store a word: `MemWrite(addr, 2, v)` (R52). -/
def Memory.writeWord (m : List Host.Cell) (a v : Word) : List Host.Cell :=
  Memory.writeByte (Memory.writeByte m (align a).toNat (v.extractLsb' 8 8))
    (align a + 1).toNat (v.extractLsb' 0 8)

/-- The byte the state holds at an address (spec/10_state.md R46). -/
def State.readByte (s : State) (a : Word) : Byte := Memory.readByte s.mem a.toNat

/-- The word the state holds at an address (R43, R50). -/
def State.readWord (s : State) (a : Word) : Word := Memory.readWord s.mem a

-- ## Registers (spec/10_state.md R22, R41)

/-- Register 0 reads 0x0000. -/
def Regs.read (x : Regs) : Reg → Word
  | .r0 => 0
  | .r1 => x.r1
  | .r2 => x.r2
  | .r3 => x.r3
  | .r4 => x.r4
  | .r5 => x.r5
  | .r6 => x.r6
  | .r7 => x.r7

/-- A write to register 0 is discarded. -/
def Regs.write (x : Regs) (r : Reg) (v : Word) : Regs :=
  match r with
  | .r0 => x
  | .r1 => { x with r1 := v }
  | .r2 => { x with r2 := v }
  | .r3 => { x with r3 := v }
  | .r4 => { x with r4 := v }
  | .r5 => { x with r5 := v }
  | .r6 => { x with r6 := v }
  | .r7 => { x with r7 := v }

/-- The value of a general register. -/
def State.readReg (s : State) (r : Reg) : Word := s.regs.read r

-- ## Commit (spec/40_execution_cycle.md R106, R108; spec/10_state.md R44)

/-- The flags an instruction leaves, and the free draws used up with them. -/
structure FlagWrite where
  flags : Flags
  draws : Nat
  deriving DecidableEq, Repr

/-- Everything one instruction writes: at most one register, the flags, at most one memory word, the
pc and the run state. -/
structure Effect where
  reg : Option (Reg × Word)
  cc : FlagWrite
  mem : Option (Word × Word)
  pc : Word
  run : RunState
  deriving DecidableEq, Repr

/-- The register file after the register write, if there is one. -/
def Regs.apply (x : Regs) : Option (Reg × Word) → Regs
  | none => x
  | some (rd, v) => x.write rd v

/-- Memory after the memory write, if there is one. -/
def Memory.apply (m : List Host.Cell) : Option (Word × Word) → List Host.Cell
  | none => m
  | some (a, v) => Memory.writeWord m a v

/-- Apply all the writes of one instruction together (R106). -/
def State.commit (s : State) (e : Effect) : State where
  regs := s.regs.apply e.reg
  flags := e.cc.flags
  pc := e.pc
  mem := Memory.apply s.mem e.mem
  run := e.run
  params := s.params
  draws := e.cc.draws

/-- The flags as they are, with no draw used. -/
def State.keepFlags (s : State) : FlagWrite := ⟨s.flags, s.draws⟩

/-- The effect that only sets the pc (R107). -/
def State.jump (s : State) (target : Word) : Effect where
  reg := none
  cc := s.keepFlags
  mem := none
  pc := target
  run := s.run

/-- The end of an instruction of `len` bytes that writes one register and possibly the flags:
`x[rd] <- v; pc <- next`, with `next = pc + len` modulo 2^16 (R107; D9). -/
def State.writeBack (s : State) (rd : Reg) (v : Word) (cc : FlagWrite) (len : Word) : Result :=
  .next (s.commit { s.jump (s.pc + len) with reg := some (rd, v), cc := cc })

/-- The end of a store of 4 bytes: `MemWrite(ea, 2, v); pc <- next` (spec/42_load_store.md R152). -/
def State.storeWord (s : State) (ea v : Word) : Result :=
  .next (s.commit { s.jump (s.pc + 4) with mem := some (ea, v) })

/-- The end of a branch: `pc <- (if taken then imm else next)` (spec/44_control.md R200). An odd target
is kept as it is (D10). -/
def State.branch (s : State) (taken : Bool) (imm : Word) : Result :=
  .next (s.commit (s.jump (if taken then imm else s.pc + 4)))

-- ## Fetch (spec/40_execution_cycle.md R101 to R103)

/-- The instruction word at the pc (R101). -/
def State.fetchWord (s : State) : Word := s.readWord s.pc

/-- The immediate word, read only if the instruction word is extended (R103; `pc + 2` modulo 2^16, D9).
No instruction that is not extended depends on the 0 that stands here otherwise. -/
def State.fetchImm (s : State) : Word :=
  if wordExtended s.params s.fetchWord then s.readWord (s.pc + 2) else 0

/-- The instruction the next step executes (R102). -/
def State.fetch (s : State) : Instr := decodeWords s.params s.fetchWord s.fetchImm

-- ## The loader (spec/70_reset_and_hazards.md R253)

/-- Deposit an image, byte by byte, into memory. -/
def State.load (s : State) (image : List (Word × Byte)) : State :=
  { s with mem := image.foldl (fun m c => Memory.writeByte m c.1.toNat c.2) s.mem }

/-- The state in which a run begins (R250, spec/10_state.md R47), for any parameters, INIT_REGS,
INIT_FLAGS and IMAGE. -/
def State.launch (p : Params) (initRegs : Regs) (initFlags : Flags)
    (image : List (Word × Byte)) : State :=
  State.load { State.reset with params := p, regs := initRegs, flags := initFlags } image

end Sys2Proof.Machine
end

