-- ==== Sys2Proof/Machine/Flags.lean ====
section
/-! DEFINITION. The condition-code unit (spec/10_state.md R27, R31) and every flag computation
(spec/41_alu.md R120 to R123). Signed values are two's complement (spec/00_scope.md R12). -/

namespace Sys2Proof.Machine

/-- The four flags by name. -/
inductive Flag where
  | zero | carry | negative | overflow
  deriving DecidableEq, Repr

/-- `get(flag)` (R31). -/
def Flags.get (f : Flags) : Flag → Bool
  | .zero => f.z
  | .carry => f.c
  | .negative => f.n
  | .overflow => f.v

/-- Give one flag a value: `set(flag)` for true, `reset(flag)` for false (R31). -/
def Flags.put (f : Flags) (b : Bool) : Flag → Flags
  | .zero => { f with z := b }
  | .carry => { f with c := b }
  | .negative => { f with n := b }
  | .overflow => { f with v := b }

/-- The branch predicates over the flags: one flag set or clear (spec/44_control.md R202), and the
combinator "all flags" / "no flags" of the unconditional and the never-taken branch (R31). -/
inductive BranchPredicate where
  | allFlags
  | noFlags
  | isSet (f : Flag)
  | isClear (f : Flag)
  deriving DecidableEq, Repr

/-- Whether a predicate holds. DEDUCED, safe: "all flags" holds in every flag setting and "no flags" in
none, as the predicates they are used for do. No instruction uses "no flags" (R31; 91_not_in_source.md
N9). Log 17. -/
def Flags.test (f : Flags) : BranchPredicate → Bool
  | .allFlags => true
  | .noFlags => false
  | .isSet g => f.get g
  | .isClear g => !f.get g

/-- `Z = (r == 0x0000)` (R27). -/
def zeroFlag (r : Word) : Bool := r == 0

/-- `N = r[15]` (R27). -/
def negativeFlag (r : Word) : Bool := r.getLsbD 15

/-- The exact signed value `x` is outside the 16-bit range: signed overflow (R120, R121). -/
def signedOverflow (x : Int) : Bool := !decide (-32768 ≤ x ∧ x ≤ 32767)

/-- The flags of `a + b` (R120). -/
def addFlags (a b : Word) : Flags where
  z := zeroFlag (a + b)
  c := decide (a.toNat + b.toNat ≥ 65536)
  n := negativeFlag (a + b)
  v := signedOverflow (a.toInt + b.toInt)

/-- C after SUB under each value of P_SUB_CARRY (R121; D7). -/
def subCarry (p : SubCarry) (a b : Word) : Bool :=
  match p with
  | .borrow => decide (a.toNat < b.toNat)
  | .carryOut => decide (a.toNat ≥ b.toNat)

/-- The flags of `a - b` (R121). -/
def subFlags (p : SubCarry) (a b : Word) : Flags where
  z := zeroFlag (a - b)
  c := subCarry p a b
  n := negativeFlag (a - b)
  v := signedOverflow (a.toInt - b.toInt)

/-- A computed flag setting, with no free draw. -/
def State.writeFlags (s : State) (f : Flags) : FlagWrite := ⟨f, s.draws⟩

/-- The flags after AND, OR or XOR with result `r`: Z and N from the result, C and V by P_LOGIC_CV
(R122; 90_conflicts.md C4). Under havoc C and V are two free draws (spec/40_execution_cycle.md R110;
log 4). -/
def State.logicFlags (s : State) (r : Word) : FlagWrite :=
  let f := (s.flags.put (zeroFlag r) .zero).put (negativeFlag r) .negative
  match s.params.logicCv with
  | .preserve => ⟨f, s.draws⟩
  | .clear => ⟨(f.put false .carry).put false .overflow, s.draws⟩
  | .havoc =>
    ⟨(f.put (Config.freeFlag s.draws) .carry).put (Config.freeFlag (s.draws + 1)) .overflow,
      s.draws + 2⟩

/-- The flags after an instruction whose row names no flag: unchanged, or four free draws, by
P_FLAGS_UNLISTED (R123; D5; log 4). -/
def State.unlistedFlags (s : State) : FlagWrite :=
  match s.params.flagsUnlisted with
  | .preserve => s.keepFlags
  | .havoc =>
    ⟨⟨Config.freeFlag s.draws, Config.freeFlag (s.draws + 1), Config.freeFlag (s.draws + 2),
      Config.freeFlag (s.draws + 3)⟩, s.draws + 4⟩

end Sys2Proof.Machine
end

