-- ==== Sys2Proof/Machine/Alu.lean ====
section
/-! DEFINITION. ADD, SUB, AND, OR, XOR, NOT, MV, ADDI and LI (spec/41_alu.md). -/

namespace Sys2Proof.Machine

/-- ADD (R125). -/
def execAdd (rd rs1 rs2 : Reg) (s : State) : Result :=
  let a := s.readReg rs1
  let b := s.readReg rs2
  s.writeBack rd (a + b) (s.writeFlags (addFlags a b)) 2

/-- SUB (R126). -/
def execSub (rd rs1 rs2 : Reg) (s : State) : Result :=
  let a := s.readReg rs1
  let b := s.readReg rs2
  s.writeBack rd (a - b) (s.writeFlags (subFlags s.params.subCarry a b)) 2

/-- AND (R127). -/
def execAnd (rd rs1 rs2 : Reg) (s : State) : Result :=
  let r := s.readReg rs1 &&& s.readReg rs2
  s.writeBack rd r (s.logicFlags r) 2

/-- OR (R128). -/
def execOr (rd rs1 rs2 : Reg) (s : State) : Result :=
  let r := s.readReg rs1 ||| s.readReg rs2
  s.writeBack rd r (s.logicFlags r) 2

/-- XOR (R129). -/
def execXor (rd rs1 rs2 : Reg) (s : State) : Result :=
  let r := s.readReg rs1 ^^^ s.readReg rs2
  s.writeBack rd r (s.logicFlags r) 2

/-- NOT (R130). -/
def execNot (rd rs1 : Reg) (s : State) : Result :=
  s.writeBack rd (~~~ s.readReg rs1) s.unlistedFlags 2

/-- MV: data movement, which never writes a flag (R131; spec/10_state.md R29). -/
def execMv (rd rs1 : Reg) (s : State) : Result :=
  s.writeBack rd (s.readReg rs1) s.keepFlags 2

/-- ADDI (R132). -/
def execAddi (rd rs1 : Reg) (imm : Word) (s : State) : Result :=
  s.writeBack rd (s.readReg rs1 + imm) s.unlistedFlags 4

/-- LI: exactly ADDI with `a = x[0] = 0` (R133). -/
def execLi (rd : Reg) (imm : Word) (s : State) : Result :=
  s.writeBack rd imm s.unlistedFlags 4

end Sys2Proof.Machine
end

