-- ==== Sys2Proof/Machine/Operands.lean ====
section
/-! DEFINITION. The operand forms (spec/30_encoding.md R78): the 3-bit immediate amount, the register
shift amount, the effective address and SLTI's comparand. Register operands are `State.readReg`; a
16-bit immediate is used as it is. -/

namespace Sys2Proof.Machine

/-- A 3-bit immediate shift amount, unsigned, 0 to 7 (R78; D22). -/
def immAmount (shamt : BitVec 3) : Nat := (shamt.setWidth 16 : Word).toNat

/-- The mask P_SHAMT_MASK stands for (spec/43_compare_shift.md R171; D8). -/
def maskWord : ShamtMask → Word
  | .full => 0xFFFF
  | .low4 => 0x000F
  | .low3 => 0x0007

/-- A register shift amount: `u(b & P_SHAMT_MASK)` (R171). -/
def State.regAmount (s : State) (rs2 : Reg) : Nat :=
  (s.readReg rs2 &&& maskWord s.params.shamtMask).toNat

/-- The effective address `a + imm`, modulo 2^16 (spec/42_load_store.md R150; D9). -/
def State.effectiveAddress (s : State) (rs1 : Reg) (imm : Word) : Word := s.readReg rs1 + imm

/-- SLTI's comparand: the immediate word, or the zero-extended rs2 field (R173; D22). -/
def sltiComparand : SltiOperand → Word
  | .imm16 imm => imm
  | .field3 k => k.setWidth 16

/-- SLTI's length: 4 bytes with an immediate word, 2 without (R173). -/
def sltiLength : SltiOperand → Word
  | .imm16 _ => 4
  | .field3 _ => 2

end Sys2Proof.Machine
end

