-- ==== Sys2Proof/Machine/CompareShift.lean ====
section
/-! DEFINITION. SLT, SLTI and the six shifts (spec/43_compare_shift.md). -/

namespace Sys2Proof.Machine

/-- `if s(a) < s(b) then 0x0001 else 0x0000` (R172). -/
def setLess (a b : Word) : Word := if a.toInt < b.toInt then 1 else 0

/-- `shl(v, n)` (R170). -/
def shl (v : Word) (n : Nat) : Word :=
  if n ≥ 16 then 0 else BitVec.ofNat 16 (v.toNat * 2 ^ n)

/-- `shr(v, n)` (R170). -/
def shr (v : Word) (n : Nat) : Word :=
  if n ≥ 16 then 0 else BitVec.ofNat 16 (v.toNat / 2 ^ n)

/-- `sra(v, n)` (R170): the quotient by the positive 2^n is rounded down. -/
def sra (v : Word) (n : Nat) : Word :=
  if n ≥ 16 then (if v.getLsbD 15 then 0xFFFF else 0)
  else BitVec.ofInt 16 (v.toInt / 2 ^ n)

/-- SLT (R172). -/
def execSlt (rd rs1 rs2 : Reg) (s : State) : Result :=
  s.writeBack rd (setLess (s.readReg rs1) (s.readReg rs2)) s.unlistedFlags 2

/-- SLTI, in either form of P_SLTI_FORM (R173). -/
def execSlti (rd rs1 : Reg) (k : SltiOperand) (s : State) : Result :=
  s.writeBack rd (setLess (s.readReg rs1) (sltiComparand k)) s.unlistedFlags (sltiLength k)

/-- SLL (R174). -/
def execSll (rd rs1 rs2 : Reg) (s : State) : Result :=
  s.writeBack rd (shl (s.readReg rs1) (s.regAmount rs2)) s.unlistedFlags 2

/-- SLLI (R175). -/
def execSlli (rd rs1 : Reg) (shamt : BitVec 3) (s : State) : Result :=
  s.writeBack rd (shl (s.readReg rs1) (immAmount shamt)) s.unlistedFlags 2

/-- SRL (R176). -/
def execSrl (rd rs1 rs2 : Reg) (s : State) : Result :=
  s.writeBack rd (shr (s.readReg rs1) (s.regAmount rs2)) s.unlistedFlags 2

/-- SRLI (R177). -/
def execSrli (rd rs1 : Reg) (shamt : BitVec 3) (s : State) : Result :=
  s.writeBack rd (shr (s.readReg rs1) (immAmount shamt)) s.unlistedFlags 2

/-- SRA (R178). -/
def execSra (rd rs1 rs2 : Reg) (s : State) : Result :=
  s.writeBack rd (sra (s.readReg rs1) (s.regAmount rs2)) s.unlistedFlags 2

/-- SRAI (R179). -/
def execSrai (rd rs1 : Reg) (shamt : BitVec 3) (s : State) : Result :=
  s.writeBack rd (sra (s.readReg rs1) (immAmount shamt)) s.unlistedFlags 2

end Sys2Proof.Machine
end

