-- ==== Sys2Proof/Machine/Control.lean ====
section
/-! DEFINITION. The branches, STOP and the unrecognized-opcode no-op (spec/44_control.md). A branch
reads the pre-state flags through a predicate of the condition-code unit (R200, R202; spec/10_state.md
R31). -/

namespace Sys2Proof.Machine

/-- BRA: the unconditional predicate (R201). -/
def execBra (imm : Word) (s : State) : Result := s.branch (s.flags.test .allFlags) imm

/-- BRZ: taken iff Z is set (R203). -/
def execBrz (imm : Word) (s : State) : Result := s.branch (s.flags.test (.isSet .zero)) imm

/-- BRNZ: taken iff Z is clear (R204). -/
def execBrnz (imm : Word) (s : State) : Result := s.branch (s.flags.test (.isClear .zero)) imm

/-- BRN: taken iff N is set (R205). -/
def execBrn (imm : Word) (s : State) : Result := s.branch (s.flags.test (.isSet .negative)) imm

/-- BRC: taken iff C is set (R206). -/
def execBrc (imm : Word) (s : State) : Result := s.branch (s.flags.test (.isSet .carry)) imm

/-- BRV: taken iff V is set (R207). -/
def execBrv (imm : Word) (s : State) : Result := s.branch (s.flags.test (.isSet .overflow)) imm

/-- STOP: halts; the pc it leaves is P_STOP_PC (R208; D11). -/
def execStop (s : State) : Result :=
  let pc := match s.params.stopPc with
    | .advance => s.pc + 2
    | .hold => s.pc
  .next (s.commit { s.jump pc with run := .halted })

/-- An unrecognized opcode: a no-op of 2 bytes, not a fault (R210; spec/60_exceptions.md R230). -/
def execUnrecognized (s : State) : Result := .next (s.commit (s.jump (s.pc + 2)))

end Sys2Proof.Machine
end

