-- ==== Sys2Proof/Machine/LoadStore.lean ====
section
/-! DEFINITION. LW and SW (spec/42_load_store.md). -/

namespace Sys2Proof.Machine

/-- LW (R151). -/
def execLw (rd rs1 : Reg) (imm : Word) (s : State) : Result :=
  s.writeBack rd (s.readWord (s.effectiveAddress rs1 imm)) s.keepFlags 4

/-- SW: base rs1, data rs2 (R152). -/
def execSw (rs1 rs2 : Reg) (imm : Word) (s : State) : Result :=
  s.storeWord (s.effectiveAddress rs1 imm) (s.readReg rs2)

end Sys2Proof.Machine
end

