-- ==== Sys2Proof/Machine/Step.lean ====
section
/-! DEFINITION. One step (spec/40_execution_cycle.md R108), and the placing of one instruction where
the step fetches it. -/

namespace Sys2Proof.Machine

/-- One step: while Running, fetch, decode and execute one instruction. When Halted there is no step
(R100; spec/10_state.md R34; log 5). -/
def step (s : State) : Host.Outcome State Fault Refusal :=
  match s.run with
  | .running => exec s.fetch s
  | .halted => .fault .halted

/-- `s` with the instruction whose bits are `w` in the opcode table's numbering stored at the pc (and
the word at `pc + 2`), and Running, so that the next step executes it. The parameters, by which the
step decodes, stay as they are. Log 6. -/
def State.withFetchWord (s : State) (nbits w : Nat) : State :=
  { s with
    mem := Memory.writeWord (Memory.writeWord s.mem s.pc (tableFirstWord nbits w)) (s.pc + 2)
      (tableSecondWord nbits w)
    run := .running }

end Sys2Proof.Machine
end

