-- ==== Sys2Proof/Machine/Assembly.lean ====
section
/-! DEFINITION. The assembly notation (spec/30_encoding.md R85): lines of a mnemonic and its operands, the
instruction a line stands for, and the line an instruction is written as. Log 16. -/

namespace Sys2Proof.Machine

/-- The mnemonics of the notation: the 25 opcodes and LI, the only pseudo-instruction (R83, R85). -/
inductive Mnemonic where
  | op (o : Op)
  | li
  deriving DecidableEq, Repr

/-- An operand: a register, or `#` and a number, for which a label may stand in a branch. -/
inductive AsmOperand where
  | reg (r : Reg)
  | imm (n : Nat)
  deriving DecidableEq, Repr

/-- A line, its operands in the order they are written in. -/
structure AsmLine where
  mnemonic : Mnemonic
  operands : List AsmOperand
  deriving DecidableEq, Repr

/-- `rd,rs1,rs2` (format RRR). -/
def asmRrr (make : Reg → Reg → Reg → Instr) : List AsmOperand → Option Instr
  | [.reg rd, .reg rs1, .reg rs2] => some (make rd rs1 rs2)
  | _ => none

/-- `rd,rs1` (format RR). -/
def asmRr (make : Reg → Reg → Instr) : List AsmOperand → Option Instr
  | [.reg rd, .reg rs1] => some (make rd rs1)
  | _ => none

/-- `rd,rs1,#shamt` with the amount in 0 to 7 (format RSH). -/
def asmRsh (make : Reg → Reg → BitVec 3 → Instr) : List AsmOperand → Option Instr
  | [.reg rd, .reg rs1, .imm n] => if n < 8 then some (make rd rs1 (BitVec.ofNat 3 n)) else none
  | _ => none

/-- Two registers and `#imm` (formats RI and SI). -/
def asmRri (make : Reg → Reg → Word → Instr) : List AsmOperand → Option Instr
  | [.reg a, .reg b, .imm n] => if n < 65536 then some (make a b (BitVec.ofNat 16 n)) else none
  | _ => none

/-- `#target` (format BI). -/
def asmTarget (make : Word → Instr) : List AsmOperand → Option Instr
  | [.imm n] => if n < 65536 then some (make (BitVec.ofNat 16 n)) else none
  | _ => none

/-- The instruction a line stands for, if it has the operands of its format. `ADDI rd,r0,#imm` is LI
(R83). SW is written data register first, base second. -/
def assembleLine (p : Params) (l : AsmLine) : Option Instr :=
  let ops := l.operands
  match l.mnemonic with
  | .op .add => asmRrr .add ops
  | .op .sub => asmRrr .sub ops
  | .op .and => asmRrr .and ops
  | .op .or => asmRrr .or ops
  | .op .xor => asmRrr .xor ops
  | .op .not => asmRr .not ops
  | .op .mv => asmRr .mv ops
  | .op .addi => asmRri (fun rd rs1 imm => if rs1 = .r0 then .li rd imm else .addi rd rs1 imm) ops
  | .li =>
    match ops with
    | [.reg rd, .imm n] => if n < 65536 then some (.li rd (BitVec.ofNat 16 n)) else none
    | _ => none
  | .op .lw => asmRri .lw ops
  | .op .sw => asmRri (fun rs2 rs1 imm => .sw rs1 rs2 imm) ops
  | .op .slt => asmRrr .slt ops
  | .op .slti =>
    match p.sltiForm with
    | .imm16 => asmRri (fun rd rs1 imm => .slti rd rs1 (.imm16 imm)) ops
    | .field3 => asmRsh (fun rd rs1 k => .slti rd rs1 (.field3 k)) ops
  | .op .sll => asmRrr .sll ops
  | .op .slli => asmRsh .slli ops
  | .op .srl => asmRrr .srl ops
  | .op .srli => asmRsh .srli ops
  | .op .sra => asmRrr .sra ops
  | .op .srai => asmRsh .srai ops
  | .op .bra => asmTarget .bra ops
  | .op .brz => asmTarget .brz ops
  | .op .brnz => asmTarget .brnz ops
  | .op .brn => asmTarget .brn ops
  | .op .brc => asmTarget .brc ops
  | .op .brv => asmTarget .brv ops
  | .op .stop => if ops = [] then some .stop else none

/-- The line an instruction is written as. An unrecognized word has no mnemonic. -/
def asmLine : Instr → Option AsmLine
  | .add rd rs1 rs2 => some ⟨.op .add, [.reg rd, .reg rs1, .reg rs2]⟩
  | .sub rd rs1 rs2 => some ⟨.op .sub, [.reg rd, .reg rs1, .reg rs2]⟩
  | .and rd rs1 rs2 => some ⟨.op .and, [.reg rd, .reg rs1, .reg rs2]⟩
  | .or rd rs1 rs2 => some ⟨.op .or, [.reg rd, .reg rs1, .reg rs2]⟩
  | .xor rd rs1 rs2 => some ⟨.op .xor, [.reg rd, .reg rs1, .reg rs2]⟩
  | .not rd rs1 => some ⟨.op .not, [.reg rd, .reg rs1]⟩
  | .mv rd rs1 => some ⟨.op .mv, [.reg rd, .reg rs1]⟩
  | .addi rd rs1 imm => some ⟨.op .addi, [.reg rd, .reg rs1, .imm imm.toNat]⟩
  | .li rd imm => some ⟨.li, [.reg rd, .imm imm.toNat]⟩
  | .lw rd rs1 imm => some ⟨.op .lw, [.reg rd, .reg rs1, .imm imm.toNat]⟩
  | .sw rs1 rs2 imm => some ⟨.op .sw, [.reg rs2, .reg rs1, .imm imm.toNat]⟩
  | .slt rd rs1 rs2 => some ⟨.op .slt, [.reg rd, .reg rs1, .reg rs2]⟩
  | .slti rd rs1 (.imm16 imm) => some ⟨.op .slti, [.reg rd, .reg rs1, .imm imm.toNat]⟩
  | .slti rd rs1 (.field3 k) => some ⟨.op .slti, [.reg rd, .reg rs1, .imm k.toNat]⟩
  | .sll rd rs1 rs2 => some ⟨.op .sll, [.reg rd, .reg rs1, .reg rs2]⟩
  | .slli rd rs1 shamt => some ⟨.op .slli, [.reg rd, .reg rs1, .imm shamt.toNat]⟩
  | .srl rd rs1 rs2 => some ⟨.op .srl, [.reg rd, .reg rs1, .reg rs2]⟩
  | .srli rd rs1 shamt => some ⟨.op .srli, [.reg rd, .reg rs1, .imm shamt.toNat]⟩
  | .sra rd rs1 rs2 => some ⟨.op .sra, [.reg rd, .reg rs1, .reg rs2]⟩
  | .srai rd rs1 shamt => some ⟨.op .srai, [.reg rd, .reg rs1, .imm shamt.toNat]⟩
  | .bra imm => some ⟨.op .bra, [.imm imm.toNat]⟩
  | .brz imm => some ⟨.op .brz, [.imm imm.toNat]⟩
  | .brnz imm => some ⟨.op .brnz, [.imm imm.toNat]⟩
  | .brn imm => some ⟨.op .brn, [.imm imm.toNat]⟩
  | .brc imm => some ⟨.op .brc, [.imm imm.toNat]⟩
  | .brv imm => some ⟨.op .brv, [.imm imm.toNat]⟩
  | .stop => some ⟨.op .stop, []⟩
  | .unrecognized _ => none

/-- The spelling of a mnemonic. -/
def Mnemonic.text : Mnemonic → String
  | .li => "LI"
  | .op .add => "ADD"
  | .op .sub => "SUB"
  | .op .and => "AND"
  | .op .or => "OR"
  | .op .xor => "XOR"
  | .op .not => "NOT"
  | .op .mv => "MV"
  | .op .addi => "ADDI"
  | .op .lw => "LW"
  | .op .sw => "SW"
  | .op .slt => "SLT"
  | .op .slti => "SLTI"
  | .op .sll => "SLL"
  | .op .slli => "SLLI"
  | .op .srl => "SRL"
  | .op .srli => "SRLI"
  | .op .sra => "SRA"
  | .op .srai => "SRAI"
  | .op .bra => "BRA"
  | .op .brz => "BRZ"
  | .op .brnz => "BRNZ"
  | .op .brn => "BRN"
  | .op .brc => "BRC"
  | .op .brv => "BRV"
  | .op .stop => "STOP"

/-- The spelling of a register: `r0` to `r7`. -/
def Reg.text : Reg → String
  | .r0 => "r0"
  | .r1 => "r1"
  | .r2 => "r2"
  | .r3 => "r3"
  | .r4 => "r4"
  | .r5 => "r5"
  | .r6 => "r6"
  | .r7 => "r7"

/-- The spelling of an operand. A number is written in decimal, one of the two ways R85 allows. -/
def AsmOperand.text : AsmOperand → String
  | .reg r => Reg.text r
  | .imm n => "#" ++ toString n

/-- The operands, separated by commas. -/
def operandsText : List AsmOperand → String
  | [] => ""
  | [x] => x.text
  | x :: y :: rest => x.text ++ "," ++ operandsText (y :: rest)

/-- The line as text. -/
def AsmLine.text (l : AsmLine) : String :=
  if l.operands = [] then l.mnemonic.text else l.mnemonic.text ++ " " ++ operandsText l.operands

end Sys2Proof.Machine
end

