-- ==== Sys2Proof/Machine/HostInterface.lean ====
section
/-! DEFINITION. What the host does with the CORE (spec/70_reset_and_hazards.md R260 to R263): the run
loop with its external stop, and inspection. Loading is `State.load` in Ops. -/

namespace Sys2Proof.Machine

/-- `run()`: steps until Halted, or until the host's stop condition holds between two instructions, or
until the host's step limit is used up (R260, R262). A stop changes no state. -/
def runLoop (stop : State → Bool) : Nat → State → Result
  | 0, s => .next s
  | n + 1, s =>
    match s.run with
    | .halted => .next s
    | .running =>
      if stop s then .next s
      else
        match step s with
        | .next t => runLoop stop n t
        | .fault r => .fault r
        | .refused r => .refused r

/-- Host-side read of a register by number. An index above 7 is refused, not given a value
(spec/60_exceptions.md R231; spec/10_state.md R46). -/
def inspectRegister (index : Nat) (s : State) : Except Refusal Word :=
  if index < 8 then .ok (s.readReg (Reg.ofBits (BitVec.ofNat 3 index)))
  else .error (.registerIndexOutOfRange index)

/-- Host-side read of the byte at an address (R46). -/
def inspectMemory (a : Word) (s : State) : Byte := s.readByte a

/-- Host-side read of the pc (R46). -/
def inspectPc (s : State) : Word := s.pc

/-- Host-side read of a flag (R46). -/
def inspectFlag (f : Flag) (s : State) : Bool := s.flags.get f

end Sys2Proof.Machine
end

