-- ==== Sys2Proof/Safety.lean ====
section
/-! DEFINITION. The terms claims are stated in: the invariant, what a step changes and keeps, and how a
word is read field by field from spec/30_encoding.md R73. -/

namespace Sys2Proof.Machine

/-- The invariant of the model: memory is in canonical form and OPC is injective (spec/20_memory.md R59;
spec/30_encoding.md R80). -/
abbrev State.inv (s : State) : Prop := Memory.wf s.mem ∧ s.params.wf

/-- Register `rd` is given `v`; every other register keeps its value; r0 reads 0 whatever `rd` is
(spec/10_state.md R22). -/
def SetsReg (s t : State) (rd : Reg) (v : Word) : Prop :=
  t.readReg .r0 = 0 ∧ (rd ≠ .r0 → t.readReg rd = v) ∧ ∀ q, q ≠ rd → t.readReg q = s.readReg q

/-- Every register keeps its value. -/
def KeepsRegs (s t : State) : Prop := ∀ q, t.readReg q = s.readReg q

/-- Every byte of memory keeps its value. -/
def KeepsMem (s t : State) : Prop := ∀ a, t.readByte a = s.readByte a

/-- The run state and the parameters stay as they are. -/
def KeepsControl (s t : State) : Prop := t.run = s.run ∧ t.params = s.params

/-- The flags stay as they are, and no free draw is used. -/
def KeepsFlags (s t : State) : Prop := t.flags = s.flags ∧ t.draws = s.draws

/-- The flag effect of an instruction whose row names no flag (spec/41_alu.md R123): none, or four free
draws, by P_FLAGS_UNLISTED. -/
def UnlistedFlags (s t : State) : Prop :=
  (s.params.flagsUnlisted = .preserve → KeepsFlags s t) ∧
  (s.params.flagsUnlisted = .havoc →
    t.flags = ⟨Config.freeFlag s.draws, Config.freeFlag (s.draws + 1),
      Config.freeFlag (s.draws + 2), Config.freeFlag (s.draws + 3)⟩ ∧ t.draws = s.draws + 4)

/-- The flag effect of AND, OR and XOR with result `r` (spec/41_alu.md R122): Z and N from the result, C
and V unchanged, cleared or freely drawn, by P_LOGIC_CV. -/
def LogicFlags (s t : State) (r : Word) : Prop :=
  t.flags.z = decide (r = 0) ∧ t.flags.n = r.getLsbD 15 ∧
  (s.params.logicCv = .preserve →
    t.flags.c = s.flags.c ∧ t.flags.v = s.flags.v ∧ t.draws = s.draws) ∧
  (s.params.logicCv = .clear → t.flags.c = false ∧ t.flags.v = false ∧ t.draws = s.draws) ∧
  (s.params.logicCv = .havoc →
    t.flags.c = Config.freeFlag s.draws ∧ t.flags.v = Config.freeFlag (s.draws + 1) ∧
    t.draws = s.draws + 2)

/-- The frame of an instruction that is not a store and does not halt: memory, run state and
parameters stay, and the pc moves past `len` bytes (spec/40_execution_cycle.md R107). -/
def Advances (s t : State) (len : Word) : Prop :=
  t.pc = s.pc + len ∧ KeepsMem s t ∧ KeepsControl s t

/-- `i` completes at `s`: it writes `v` to `rd`, has the unlisted flag effect, and moves past `len`
bytes. -/
def WritesUnlisted (i : Instr) (s : State) (rd : Reg) (v : Word) (len : Word) : Prop :=
  ∃ t, exec i s = .next t ∧ SetsReg s t rd v ∧ UnlistedFlags s t ∧ Advances s t len

/-- `i` completes at `s` and changes nothing but the pc, which becomes `target`. -/
def OnlyJumps (i : Instr) (s : State) (target : Word) : Prop :=
  ∃ t, exec i s = .next t ∧ KeepsRegs s t ∧ KeepsFlags s t ∧ KeepsMem s t ∧ KeepsControl s t ∧
    t.pc = target

/-- The register the 3-bit field of `w` with lowest bit `lo` names (spec/30_encoding.md R73). -/
def fieldReg (w : Word) (lo : Nat) : Reg := Reg.ofBits (w.extractLsb' lo 3)

/-- Under the reference assignment, every word that matches `m` under the mask 0xFC00 decodes to the
instruction `f` makes of it and of the following word (spec/30_encoding.md R80). -/
def EncodedAs (m : Word) (f : Word → Word → Instr) : Prop :=
  ∀ (p : Params) (w imm : Word), p.opc = Opc.reference → w &&& 0xFC00#16 = m →
    decodeWords p w imm = f w imm

/-- The bits of the instruction word that matter under each mnemonic: the major opcode and the fields its
format uses (spec/30_encoding.md R76, R79). -/
def usedBits (form : SltiForm) : Op → Word
  | .add | .sub | .and | .or | .xor | .slt | .sll | .srl | .sra => 0xFDFF
  | .slli | .srli | .srai => 0xFDFF
  | .not | .mv | .addi | .lw => 0xFDF8
  | .slti => if form = .imm16 then 0xFDF8 else 0xFDFF
  | .sw => 0xFC3F
  | .bra | .brz | .brnz | .brn | .brc | .brv | .stop => 0xFC00

/-- The same for a word: an unrecognized word has only its major opcode (R81). -/
def usedBitsOf (p : Params) (w : Word) : Word :=
  match p.opc.lookup (w.extractLsb' 10 6) with
  | some op => usedBits p.sltiForm op
  | none => 0xFC00

/-- The register an instruction writes (spec/10_state.md R24). -/
def writtenReg : Instr → Option Reg
  | .add rd _ _ | .sub rd _ _ | .and rd _ _ | .or rd _ _ | .xor rd _ _ => some rd
  | .not rd _ | .mv rd _ | .addi rd _ _ | .li rd _ | .lw rd _ _ => some rd
  | .slt rd _ _ | .slti rd _ _ | .sll rd _ _ | .slli rd _ _ | .srl rd _ _ | .srli rd _ _ => some rd
  | .sra rd _ _ | .srai rd _ _ => some rd
  | .sw _ _ _ | .bra _ | .brz _ | .brnz _ | .brn _ | .brc _ | .brv _ => none
  | .stop | .unrecognized _ => none

/-- The registers an instruction reads (spec/10_state.md R24). LI names r0 as the ADDI it is. -/
def readRegs : Instr → List Reg
  | .add _ rs1 rs2 | .sub _ rs1 rs2 | .and _ rs1 rs2 | .or _ rs1 rs2 | .xor _ rs1 rs2 => [rs1, rs2]
  | .slt _ rs1 rs2 | .sll _ rs1 rs2 | .srl _ rs1 rs2 | .sra _ rs1 rs2 => [rs1, rs2]
  | .sw rs1 rs2 _ => [rs1, rs2]
  | .not _ rs1 | .mv _ rs1 | .addi _ rs1 _ | .lw _ rs1 _ | .slti _ rs1 _ => [rs1]
  | .slli _ rs1 _ | .srli _ rs1 _ | .srai _ rs1 _ => [rs1]
  | .li _ _ => [.r0]
  | .bra _ | .brz _ | .brnz _ | .brn _ | .brc _ | .brv _ | .stop | .unrecognized _ => []

/-- The flag an instruction reads: only the conditional branches read one (spec/10_state.md R30). -/
def readFlag : Instr → Option Flag
  | .brz _ | .brnz _ => some .zero
  | .brn _ => some .negative
  | .brc _ => some .carry
  | .brv _ => some .overflow
  | .add _ _ _ | .sub _ _ _ | .and _ _ _ | .or _ _ _ | .xor _ _ _ | .not _ _ | .mv _ _ => none
  | .addi _ _ _ | .li _ _ | .lw _ _ _ | .sw _ _ _ | .slt _ _ _ | .slti _ _ _ | .sll _ _ _ => none
  | .slli _ _ _ | .srl _ _ _ | .srli _ _ _ | .sra _ _ _ | .srai _ _ _ | .bra _ | .stop => none
  | .unrecognized _ => none

/-- Whether an instruction writes a flag, under given parameters (spec/10_state.md R29). -/
def writesFlag (p : Params) (i : Instr) (f : Flag) : Bool :=
  match i with
  | .add _ _ _ | .sub _ _ _ => true
  | .and _ _ _ | .or _ _ _ | .xor _ _ _ => f == .zero || f == .negative || p.logicCv != .preserve
  | .not _ _ | .addi _ _ _ | .li _ _ | .slt _ _ _ | .slti _ _ _ => p.flagsUnlisted == .havoc
  | .sll _ _ _ | .slli _ _ _ | .srl _ _ _ | .srli _ _ _ => p.flagsUnlisted == .havoc
  | .sra _ _ _ | .srai _ _ _ => p.flagsUnlisted == .havoc
  | .mv _ _ | .lw _ _ _ | .sw _ _ _ | .bra _ | .brz _ | .brnz _ | .brn _ | .brc _ => false
  | .brv _ | .stop | .unrecognized _ => false

/-- The target of a branch that is taken in this flag setting (spec/44_control.md R200 to R207). -/
def takenTarget (f : Flags) : Instr → Option Word
  | .bra imm => some imm
  | .brz imm => if f.z then some imm else none
  | .brnz imm => if f.z then none else some imm
  | .brn imm => if f.n then some imm else none
  | .brc imm => if f.c then some imm else none
  | .brv imm => if f.v then some imm else none
  | .add _ _ _ | .sub _ _ _ | .and _ _ _ | .or _ _ _ | .xor _ _ _ | .not _ _ | .mv _ _ => none
  | .addi _ _ _ | .li _ _ | .lw _ _ _ | .sw _ _ _ | .slt _ _ _ | .slti _ _ _ | .sll _ _ _ => none
  | .slli _ _ _ | .srl _ _ _ | .srli _ _ _ | .sra _ _ _ | .srai _ _ _ | .stop => none
  | .unrecognized _ => none

/-- The address an instruction stores a word to: only SW stores (spec/20_memory.md R55). -/
def storeAddress (s : State) : Instr → Option Word
  | .sw rs1 _ imm => some (s.effectiveAddress rs1 imm)
  | .add _ _ _ | .sub _ _ _ | .and _ _ _ | .or _ _ _ | .xor _ _ _ | .not _ _ | .mv _ _ => none
  | .addi _ _ _ | .li _ _ | .lw _ _ _ | .slt _ _ _ | .slti _ _ _ | .sll _ _ _ => none
  | .slli _ _ _ | .srl _ _ _ | .srli _ _ _ | .sra _ _ _ | .srai _ _ _ | .bra _ | .brz _ => none
  | .brnz _ | .brn _ | .brc _ | .brv _ | .stop | .unrecognized _ => none

/-- `RunsWhile P k s t`: exactly `k` steps lead from `s` to `t`, and `P` holds in every state a step is
taken from. -/
inductive RunsWhile (P : State → Prop) : Nat → State → State → Prop where
  | refl (s : State) : RunsWhile P 0 s s
  | step (k : Nat) (s u t : State) :
      P s → step s = .next u → RunsWhile P k u t → RunsWhile P (k + 1) s t

/-- The next instruction does not store to the aligned word at `a`. -/
def SparesWord (a : Word) (s : State) : Prop := ∀ ea, storeAddress s s.fetch = some ea → align ea ≠ align a

end Sys2Proof.Machine
end

