-- ==== Sys2Proof/WellFormed.lean ====
section
/-! DEFINITION. Which instruction terms are the decoding of some word, under given parameters. Register
and shift-amount ranges are in the types (spec/10_state.md R23), so three checks remain. -/

namespace Sys2Proof

/-- The checks:
* ADDI with rs1 = r0 is spelled LI (spec/30_encoding.md R83; log 8);
* SLTI's comparand has the form P_SLTI_FORM selects (spec/43_compare_shift.md R173);
* an unrecognized major opcode is one OPC does not assign (spec/30_encoding.md R81). -/
def Instr.wellFormed (p : Params) : Instr → Bool
  | .addi _ rs1 _ => rs1 != .r0
  | .slti _ _ k => k.form == p.sltiForm
  | .unrecognized op6 => !p.opc.assigns op6
  | .add _ _ _ => true
  | .sub _ _ _ => true
  | .and _ _ _ => true
  | .or _ _ _ => true
  | .xor _ _ _ => true
  | .not _ _ => true
  | .mv _ _ => true
  | .li _ _ => true
  | .lw _ _ _ => true
  | .sw _ _ _ => true
  | .slt _ _ _ => true
  | .sll _ _ _ => true
  | .slli _ _ _ => true
  | .srl _ _ _ => true
  | .srli _ _ _ => true
  | .sra _ _ _ => true
  | .srai _ _ _ => true
  | .bra _ => true
  | .brz _ => true
  | .brnz _ => true
  | .brn _ => true
  | .brc _ => true
  | .brv _ => true
  | .stop => true

end Sys2Proof
end

