-- ==== Sys2Proof/Certificates/Slice0/Obligations.lean ====
section
/-! DEFINITION. The statements about the machine. Each docstring names the rule it formalises; where a
clause is the model's own choice, it names the log entry, and where it is one the spec marks as its own
(92_eei_decisions.md D<n>, or derived), that mark. The match words in `EncodedAs` are the spec's own
reference assignment (D1), which is a premise; that sums of addresses wrap is D9. -/

open Sys2Proof Sys2Proof.Machine

-- ## What each instruction does (spec/41_alu.md to spec/44_control.md)

/-- R125: ADD, its encoding, its result, its four flags (the formulas of R120), and its frame. -/
def Obligations.AddResult : Prop :=
  EncodedAs 0x0400 (fun w _ => .add (fieldReg w 6) (fieldReg w 3) (fieldReg w 0)) ∧
  ∀ (rd rs1 rs2 : Reg) (s : State),
    let a := s.readReg rs1
    let b := s.readReg rs2
    ∃ t, exec (.add rd rs1 rs2) s = .next t ∧ SetsReg s t rd (a + b) ∧
      t.flags.z = decide (a + b = 0) ∧
      t.flags.c = decide (65536 ≤ a.toNat + b.toNat) ∧
      t.flags.n = (a + b).getLsbD 15 ∧
      t.flags.v = !decide (-32768 ≤ a.toInt + b.toInt ∧ a.toInt + b.toInt ≤ 32767) ∧
      t.draws = s.draws ∧ Advances s t 2

/-- R126: SUB, its encoding, its result, its four flags (the formulas of R121, C by P_SUB_CARRY), and its
frame. -/
def Obligations.SubResult : Prop :=
  EncodedAs 0x0800 (fun w _ => .sub (fieldReg w 6) (fieldReg w 3) (fieldReg w 0)) ∧
  ∀ (rd rs1 rs2 : Reg) (s : State),
    let a := s.readReg rs1
    let b := s.readReg rs2
    ∃ t, exec (.sub rd rs1 rs2) s = .next t ∧ SetsReg s t rd (a - b) ∧
      t.flags.z = decide (a - b = 0) ∧
      (s.params.subCarry = .borrow → t.flags.c = decide (a.toNat < b.toNat)) ∧
      (s.params.subCarry = .carryOut → t.flags.c = decide (b.toNat ≤ a.toNat)) ∧
      t.flags.n = (a - b).getLsbD 15 ∧
      t.flags.v = !decide (-32768 ≤ a.toInt - b.toInt ∧ a.toInt - b.toInt ≤ 32767) ∧
      t.draws = s.draws ∧ Advances s t 2

/-- R127, R128, R129 with R122: AND, OR and XOR. -/
def Obligations.LogicResults : Prop :=
  EncodedAs 0x0C00 (fun w _ => .and (fieldReg w 6) (fieldReg w 3) (fieldReg w 0)) ∧
  EncodedAs 0x1000 (fun w _ => .or (fieldReg w 6) (fieldReg w 3) (fieldReg w 0)) ∧
  EncodedAs 0x1400 (fun w _ => .xor (fieldReg w 6) (fieldReg w 3) (fieldReg w 0)) ∧
  ∀ (rd rs1 rs2 : Reg) (s : State),
    let a := s.readReg rs1
    let b := s.readReg rs2
    (∃ t, exec (.and rd rs1 rs2) s = .next t ∧ SetsReg s t rd (a &&& b) ∧
      LogicFlags s t (a &&& b) ∧ Advances s t 2) ∧
    (∃ t, exec (.or rd rs1 rs2) s = .next t ∧ SetsReg s t rd (a ||| b) ∧
      LogicFlags s t (a ||| b) ∧ Advances s t 2) ∧
    (∃ t, exec (.xor rd rs1 rs2) s = .next t ∧ SetsReg s t rd (a ^^^ b) ∧
      LogicFlags s t (a ^^^ b) ∧ Advances s t 2)

/-- R130: NOT. -/
def Obligations.NotResult : Prop :=
  EncodedAs 0x1800 (fun w _ => .not (fieldReg w 6) (fieldReg w 3)) ∧
  ∀ (rd rs1 : Reg) (s : State), WritesUnlisted (.not rd rs1) s rd (~~~ s.readReg rs1) 2

/-- R131: MV, which keeps the flags under every parameter setting. -/
def Obligations.MvResult : Prop :=
  EncodedAs 0x1C00 (fun w _ => .mv (fieldReg w 6) (fieldReg w 3)) ∧
  ∀ (rd rs1 : Reg) (s : State),
    ∃ t, exec (.mv rd rs1) s = .next t ∧ SetsReg s t rd (s.readReg rs1) ∧ KeepsFlags s t ∧
      Advances s t 2

/-- R132: ADDI. Its words with rs1 = 0 are spelled LI (R133). -/
def Obligations.AddiResult : Prop :=
  EncodedAs 0x2000 (fun w imm =>
    if fieldReg w 3 = .r0 then .li (fieldReg w 6) imm
    else .addi (fieldReg w 6) (fieldReg w 3) imm) ∧
  ∀ (rd rs1 : Reg) (imm : Word) (s : State),
    WritesUnlisted (.addi rd rs1 imm) s rd (s.readReg rs1 + imm) 4

/-- From R133 and R83 (D3: the alias is the spec's own decision): LI is the ADDI words with rs1 = 0, and does exactly what ADDI from r0 does. -/
def Obligations.LiResult : Prop :=
  (∀ (p : Params) (w imm : Word), p.opc = Opc.reference → w &&& 0xFC38#16 = 0x2000#16 →
    decodeWords p w imm = .li (fieldReg w 6) imm) ∧
  (∀ (p : Params) (rd : Reg) (imm : Word), encode p (.li rd imm) = encode p (.addi rd .r0 imm)) ∧
  ∀ (rd : Reg) (imm : Word) (s : State),
    WritesUnlisted (.li rd imm) s rd imm 4 ∧ exec (.li rd imm) s = exec (.addi rd .r0 imm) s

/-- R151: LW. The word is the two bytes at `ea & 0xFFFE` and the next address. -/
def Obligations.LwResult : Prop :=
  EncodedAs 0x2400 (fun w imm => .lw (fieldReg w 6) (fieldReg w 3) imm) ∧
  ∀ (rd rs1 : Reg) (imm : Word) (s : State),
    let a := (s.readReg rs1 + imm) &&& 0xFFFE#16
    ∃ t, exec (.lw rd rs1 imm) s = .next t ∧
      SetsReg s t rd (s.readByte a ++ s.readByte (a + 1)) ∧ KeepsFlags s t ∧ Advances s t 4

/-- R152: SW. The address stored to is `s.effectiveAddress rs1 imm`, aligned; every byte outside the two
stored bytes is unchanged. -/
def Obligations.SwResult : Prop :=
  EncodedAs 0x2800 (fun w imm => .sw (fieldReg w 3) (fieldReg w 0) imm) ∧
  ∀ (rs1 rs2 : Reg) (imm : Word) (s : State),
    let a := s.effectiveAddress rs1 imm &&& 0xFFFE#16
    s.effectiveAddress rs1 imm = s.readReg rs1 + imm ∧
    ∃ t, exec (.sw rs1 rs2 imm) s = .next t ∧
      t.readByte a = (s.readReg rs2).extractLsb' 8 8 ∧
      t.readByte (a + 1) = (s.readReg rs2).extractLsb' 0 8 ∧
      (∀ q, q ≠ a → q ≠ a + 1 → t.readByte q = s.readByte q) ∧
      KeepsRegs s t ∧ KeepsFlags s t ∧ KeepsControl s t ∧ t.pc = s.pc + 4

/-- R172: SLT, a signed comparison. -/
def Obligations.SltResult : Prop :=
  EncodedAs 0x2C00 (fun w _ => .slt (fieldReg w 6) (fieldReg w 3) (fieldReg w 0)) ∧
  ∀ (rd rs1 rs2 : Reg) (s : State),
    WritesUnlisted (.slt rd rs1 rs2) s rd
      (if (s.readReg rs1).toInt < (s.readReg rs2).toInt then 0x0001 else 0x0000) 2

/-- R173: SLTI in both forms of P_SLTI_FORM. -/
def Obligations.SltiResult : Prop :=
  (∀ (p : Params) (w imm : Word), p.opc = Opc.reference → w &&& 0xFC00#16 = 0x3000#16 →
    (p.sltiForm = .imm16 →
      decodeWords p w imm = .slti (fieldReg w 6) (fieldReg w 3) (.imm16 imm)) ∧
    (p.sltiForm = .field3 →
      decodeWords p w imm = .slti (fieldReg w 6) (fieldReg w 3) (.field3 (w.extractLsb' 0 3)))) ∧
  ∀ (rd rs1 : Reg) (imm : Word) (k : BitVec 3) (s : State),
    WritesUnlisted (.slti rd rs1 (.imm16 imm)) s rd
      (if (s.readReg rs1).toInt < imm.toInt then 0x0001 else 0x0000) 4 ∧
    WritesUnlisted (.slti rd rs1 (.field3 k)) s rd
      (if (s.readReg rs1).toInt < (k.setWidth 16).toInt then 0x0001 else 0x0000) 2

/-- R174, R176, R178 with the register amount of R171: SLL, SRL and SRA. -/
def Obligations.RegisterShiftResults : Prop :=
  EncodedAs 0x3400 (fun w _ => .sll (fieldReg w 6) (fieldReg w 3) (fieldReg w 0)) ∧
  EncodedAs 0x3C00 (fun w _ => .srl (fieldReg w 6) (fieldReg w 3) (fieldReg w 0)) ∧
  EncodedAs 0x4400 (fun w _ => .sra (fieldReg w 6) (fieldReg w 3) (fieldReg w 0)) ∧
  ∀ (rd rs1 rs2 : Reg) (s : State) (mask : Word),
    (s.params.shamtMask = .full → mask = 0xFFFF) → (s.params.shamtMask = .low4 → mask = 0x000F) →
    (s.params.shamtMask = .low3 → mask = 0x0007) →
    let n := (s.readReg rs2 &&& mask).toNat
    WritesUnlisted (.sll rd rs1 rs2) s rd (shl (s.readReg rs1) n) 2 ∧
    WritesUnlisted (.srl rd rs1 rs2) s rd (shr (s.readReg rs1) n) 2 ∧
    WritesUnlisted (.sra rd rs1 rs2) s rd (sra (s.readReg rs1) n) 2

/-- R175, R177, R179 with the immediate amount of R171: SLLI, SRLI and SRAI. -/
def Obligations.ImmediateShiftResults : Prop :=
  EncodedAs 0x3800 (fun w _ => .slli (fieldReg w 6) (fieldReg w 3) (w.extractLsb' 0 3)) ∧
  EncodedAs 0x4000 (fun w _ => .srli (fieldReg w 6) (fieldReg w 3) (w.extractLsb' 0 3)) ∧
  EncodedAs 0x4800 (fun w _ => .srai (fieldReg w 6) (fieldReg w 3) (w.extractLsb' 0 3)) ∧
  ∀ (rd rs1 : Reg) (shamt : BitVec 3) (s : State),
    WritesUnlisted (.slli rd rs1 shamt) s rd (shl (s.readReg rs1) shamt.toNat) 2 ∧
    WritesUnlisted (.srli rd rs1 shamt) s rd (shr (s.readReg rs1) shamt.toNat) 2 ∧
    WritesUnlisted (.srai rd rs1 shamt) s rd (sra (s.readReg rs1) shamt.toNat) 2

/-- R201: BRA. -/
def Obligations.BraResult : Prop :=
  EncodedAs 0x4C00 (fun _ imm => .bra imm) ∧
  ∀ (imm : Word) (s : State), OnlyJumps (.bra imm) s imm

/-- R202 to R207: each conditional branch is taken exactly when its predicate holds, and otherwise
falls through to `pc + 4`. -/
def Obligations.ConditionalBranchResults : Prop :=
  EncodedAs 0x5000 (fun _ imm => .brz imm) ∧ EncodedAs 0x5400 (fun _ imm => .brnz imm) ∧
  EncodedAs 0x5800 (fun _ imm => .brn imm) ∧ EncodedAs 0x5C00 (fun _ imm => .brc imm) ∧
  EncodedAs 0x6000 (fun _ imm => .brv imm) ∧
  ∀ (imm : Word) (s : State),
    OnlyJumps (.brz imm) s (if s.flags.z = true then imm else s.pc + 4) ∧
    OnlyJumps (.brnz imm) s (if s.flags.z = false then imm else s.pc + 4) ∧
    OnlyJumps (.brn imm) s (if s.flags.n = true then imm else s.pc + 4) ∧
    OnlyJumps (.brc imm) s (if s.flags.c = true then imm else s.pc + 4) ∧
    OnlyJumps (.brv imm) s (if s.flags.v = true then imm else s.pc + 4)

/-- R208: STOP halts; nothing else changes but the pc, which P_STOP_PC decides; no step follows. -/
def Obligations.StopResult : Prop :=
  EncodedAs 0x6400 (fun _ _ => .stop) ∧
  ∀ s : State,
    ∃ t, exec .stop s = .next t ∧ t.run = .halted ∧
      (s.params.stopPc = .advance → t.pc = s.pc + 2) ∧ (s.params.stopPc = .hold → t.pc = s.pc) ∧
      KeepsRegs s t ∧ KeepsFlags s t ∧ KeepsMem s t ∧ t.params = s.params ∧
      ∀ u, step t ≠ .next u

/-- R210, and R81 (the reference numbers are the spec's own, D1): a word whose major opcode OPC gives to no mnemonic is a 2-byte no-op; under the reference
assignment those are the major opcodes 0 and 26 to 63. -/
def Obligations.UnrecognizedIsNoOp : Prop :=
  (∀ (p : Params) (w imm : Word), (∀ op, p.opc.code op ≠ w.extractLsb' 10 6) →
    decodeWords p w imm = .unrecognized (w.extractLsb' 10 6)) ∧
  (∀ c : BitVec 6, (∀ op, Opc.reference.code op ≠ c) ↔ c = 0 ∨ 26 ≤ c.toNat) ∧
  ∀ (op6 : BitVec 6) (s : State), OnlyJumps (.unrecognized op6) s (s.pc + 2)

-- ## Flag and shift arithmetic

/-- From R120: the flags of an addition, with overflow also as the bit formula the spec gives as equivalent
from general knowledge (93_implementation_defined.md G2). -/
def Obligations.AddFlagsExact : Prop :=
  ∀ a b : Word,
    (addFlags a b).z = decide (a + b = 0) ∧
    ((addFlags a b).c = true ↔ 65536 ≤ a.toNat + b.toNat) ∧
    (addFlags a b).n = (a + b).getLsbD 15 ∧
    ((addFlags a b).v = true ↔ ¬(-32768 ≤ a.toInt + b.toInt ∧ a.toInt + b.toInt ≤ 32767)) ∧
    ((addFlags a b).v = true ↔
      a.getLsbD 15 = b.getLsbD 15 ∧ (a + b).getLsbD 15 ≠ a.getLsbD 15)

/-- From R121: the flags of a subtraction, with overflow also as the bit formula, and `carry_out` as the carry
out of bit 15 of `a + ~b + 1`, both given by the spec as equivalent from general knowledge (G3, G4). -/
def Obligations.SubFlagsExact : Prop :=
  ∀ (p : SubCarry) (a b : Word),
    (subFlags p a b).z = decide (a - b = 0) ∧
    (subFlags p a b).n = (a - b).getLsbD 15 ∧
    ((subFlags p a b).v = true ↔ ¬(-32768 ≤ a.toInt - b.toInt ∧ a.toInt - b.toInt ≤ 32767)) ∧
    ((subFlags p a b).v = true ↔
      a.getLsbD 15 ≠ b.getLsbD 15 ∧ (a - b).getLsbD 15 ≠ a.getLsbD 15) ∧
    ((subFlags .borrow a b).c = true ↔ a.toNat < b.toNat) ∧
    ((subFlags .carryOut a b).c = true ↔ a.toNat ≥ b.toNat) ∧
    ((subFlags .carryOut a b).c = true ↔ 65536 ≤ a.toNat + (~~~b).toNat + 1)

/-- R170: the three shift functions, as integer arithmetic and as the bits that enter. -/
def Obligations.ShiftFunctionsExact : Prop :=
  ∀ (v : Word) (n : Nat),
    (shl v n).toNat = (if n ≥ 16 then 0 else v.toNat * 2 ^ n % 2 ^ 16) ∧
    (shr v n).toNat = (if n ≥ 16 then 0 else v.toNat / 2 ^ n) ∧
    (n < 16 → (sra v n).toInt = v.toInt / 2 ^ n) ∧
    (n ≥ 16 → sra v n = if v.getLsbD 15 then 0xFFFF else 0x0000) ∧
    (∀ i < 16, (shl v n).getLsbD i = (decide (n ≤ i) && v.getLsbD (i - n))) ∧
    (∀ i < 16, (shr v n).getLsbD i = (decide (i + n < 16) && v.getLsbD (i + n))) ∧
    (∀ i < 16, (sra v n).getLsbD i = if i + n < 16 then v.getLsbD (i + n) else v.getLsbD 15) ∧
    shl v 0 = v ∧ shr v 0 = v ∧ sra v 0 = v

/-- From R124 (which the spec marks derived): with rd = r0 the register write is discarded and the flags are written all the same. -/
def Obligations.FlagsWrittenWithR0 : Prop :=
  ∀ (op : Reg → Reg → Reg → Instr) (rd rs1 rs2 : Reg) (s : State),
    op = Instr.add ∨ op = Instr.sub ∨ op = Instr.and ∨ op = Instr.or ∨ op = Instr.xor →
    ∃ t₀ t, exec (op .r0 rs1 rs2) s = .next t₀ ∧ exec (op rd rs1 rs2) s = .next t ∧
      KeepsRegs s t₀ ∧ t₀.flags = t.flags ∧ t₀.draws = t.draws

/-- R123: an instruction that writes a register and whose row names no flag (every one but ADD, SUB, AND,
OR, XOR and the data movements MV and LW) has the unlisted flag effect. -/
def Obligations.UnlistedFlagEffect : Prop :=
  ∀ (i : Instr) (s t : State), exec i s = .next t →
    (match i with
      | .not _ _ | .addi _ _ _ | .li _ _ | .slt _ _ _ | .slti _ _ _ | .sll _ _ _ | .slli _ _ _
      | .srl _ _ _ | .srli _ _ _ | .sra _ _ _ | .srai _ _ _ => UnlistedFlags s t
      | _ => True)

/-- From R121, R124, R206: SUB into r0 compares. Under `borrow`, a BRC that follows branches iff
`ra <u rb`; a BRZ iff they are equal; and N differs from V iff `ra <s rb`. -/
def Obligations.SubtractCompares : Prop :=
  ∀ (ra rb : Reg) (imm : Word) (s : State), s.params.subCarry = .borrow →
    ∃ t, exec (.sub .r0 ra rb) s = .next t ∧
      OnlyJumps (.brc imm) t
        (if (s.readReg ra).toNat < (s.readReg rb).toNat then imm else t.pc + 4) ∧
      OnlyJumps (.brz imm) t (if s.readReg ra = s.readReg rb then imm else t.pc + 4) ∧
      (t.flags.n ≠ t.flags.v ↔ (s.readReg ra).toInt < (s.readReg rb).toInt)

-- ## Decoding and encoding (spec/30_encoding.md)

/-- From R71: the four fields by the masks; and what the spec derives from it (R72, D2): the same fields as
runs of bits, and word bit 9 in no field and without effect on any instruction. -/
def Obligations.DecoderFieldEquations : Prop :=
  ∀ w : Word,
    (decodeFields w).opcode.toNat = (w.toNat &&& 0xFD00) >>> 9 ∧
    (decodeFields w).rd.toNat = (w.toNat &&& 0x01C0) >>> 6 ∧
    (decodeFields w).rs1.toNat = (w.toNat &&& 0x0038) >>> 3 ∧
    (decodeFields w).rs2.toNat = w.toNat &&& 0x0007 ∧
    (decodeFields w).opcode.toNat = 2 * (w.toNat / 1024) ∧
    (decodeFields w).rd.toNat = w.toNat / 64 % 8 ∧
    (decodeFields w).rs1.toNat = w.toNat / 8 % 8 ∧
    (decodeFields w).rs2.toNat = w.toNat % 8 ∧
    (decodeFields w).op6 = w.extractLsb' 10 6 ∧
    decodeFields (w ^^^ 0x0200#16) = decodeFields w ∧
    ∀ (p : Params) (imm : Word), decodeWords p (w ^^^ 0x0200#16) imm = decodeWords p w imm

/-- From R79 (D14: ignoring them is the spec's own decision): the bits outside the fields a format uses change nothing, and the encoder emits them as 0. -/
def Obligations.IgnoredBits : Prop :=
  (∀ (p : Params) (w w' imm : Word), w &&& usedBitsOf p w = w' &&& usedBitsOf p w →
    decodeWords p w imm = decodeWords p w' imm) ∧
  ∀ (p : Params) (w imm : Word),
    encode p (decodeWords p w imm)
      = (w &&& usedBitsOf p w) :: (if wordExtended p w then [imm] else [])

/-- From R75 (D2: bit 9 emitted as 0 is the spec's own decision): the fields of a packed word, for every major opcode and every field value. -/
def Obligations.FieldRoundTrip : Prop :=
  ∀ (op6 : BitVec 6) (rd rs1 rs2 : BitVec 3),
    (decodeFields (packWord op6 rd rs1 rs2)).opcode.toNat = 2 * op6.toNat ∧
    (decodeFields (packWord op6 rd rs1 rs2)).rd = rd ∧
    (decodeFields (packWord op6 rd rs1 rs2)).rs1 = rs1 ∧
    (decodeFields (packWord op6 rd rs1 rs2)).rs2 = rs2 ∧
    (packWord op6 rd rs1 rs2).getLsbD 9 = false

/-- From R74: decoding never fails on four bytes, whatever they are, nor on two bytes or more whose first
word is not extended, which decode to the instruction of that word. A list is refused only where it ends
inside the instruction. That a short list is refused, and the names `truncatedWord` and
`truncatedImmediate`, are the model's own (DESIGN CHOICE, log 18). -/
def Obligations.DecodeTotal : Prop :=
  (∀ (p : Params) (b₀ b₁ b₂ b₃ : Byte) (rest : List Byte),
    ∃ i r, decode p (b₀ :: b₁ :: b₂ :: b₃ :: rest) = .ok (i, r)) ∧
  (∀ (p : Params) (b₀ b₁ : Byte) (rest : List Byte), wordExtended p (b₀ ++ b₁) = false →
    decode p (b₀ :: b₁ :: rest) = .ok (decodeWords p (b₀ ++ b₁) 0, rest)) ∧
  (∀ (p : Params) (b₀ b₁ b₂ b₃ : Byte) (rest : List Byte), wordExtended p (b₀ ++ b₁) = true →
    decode p (b₀ :: b₁ :: b₂ :: b₃ :: rest)
      = .ok (decodeWords p (b₀ ++ b₁) (b₂ ++ b₃), rest)) ∧
  (∀ (p : Params) (bs : List Byte), bs.length < 2 → decode p bs = .error .truncatedWord) ∧
  ∀ (p : Params) (b₀ b₁ : Byte) (bs : List Byte), bs.length < 2 →
    wordExtended p (b₀ ++ b₁) = true → decode p (b₀ :: b₁ :: bs) = .error .truncatedImmediate

/-- R77: the length depends on the major opcode alone: 4 bytes for the listed mnemonics, and for SLTI
under `imm16`; 2 bytes for all others, an unrecognized opcode included. -/
def Obligations.DecodedLength : Prop :=
  ∀ (p : Params) (w imm : Word),
    (decodeWords p w imm).length
      = match p.opc.lookup (w.extractLsb' 10 6) with
        | some op =>
          if op ∈ [Op.addi, .lw, .sw, .bra, .brz, .brnz, .brn, .brc, .brv] ∨
              (op = .slti ∧ p.sltiForm = .imm16) then 4 else 2
        | none => 2

/-- Decode and encode agree: for every parameter setting with an injective OPC, every well-formed
instruction is read back from its own bytes, whatever bytes follow. That the ADDI words with rs1 = 0
are spelled LI is the model's choice (DESIGN CHOICE, log 8). -/
def Obligations.DecodeEncodeRoundTrip : Prop :=
  ∀ (p : Params) (i : Instr) (rest : List Byte), p.wf → i.wellFormed p = true →
    decode p (wordsToBytes (encode p i) ++ rest) = .ok (i, rest)

/-- Whatever decodes is well formed (with ADDI from r0 spelled LI, log 8), and uses as many bytes as its
length says. -/
def Obligations.DecodedWellFormed : Prop :=
  ∀ (p : Params) (bs rest : List Byte) (i : Instr), decode p bs = .ok (i, rest) →
    i.wellFormed p = true ∧ bs.length = i.length.toNat + rest.length

/-- Words written out in the spec (95_test_vectors.md L1, L2; the two words of SLTI are the Example of
43_compare_shift.md R173) decode to the instructions it says they are, under the reference parameters. -/
def Obligations.SpecWordsDecode : Prop :=
  decodeTableWord 16 0x04CA = some (.add .r3 .r1 .r2) ∧
  decodeTableWord 16 0x06CA = some (.add .r3 .r1 .r2) ∧
  decodeTableWord 32 0x000520C8 = some (.addi .r3 .r1 5) ∧
  decodeTableWord 32 0x12342140 = some (.li .r5 0x1234) ∧
  decodeTableWord 32 0x00102801 = some (.sw .r0 .r1 0x10) ∧
  decodeTableWord 32 0x800030C8 = some (.slti .r3 .r1 (.imm16 0x8000)) ∧
  decodeTableWord 16 0x48CF = some (.srai .r3 .r1 7) ∧
  decodeTableWord 32 0x00405400 = some (.brnz 0x40) ∧
  decodeTableWord 16 0x6600 = some .stop ∧
  decodeTableWord 16 0x6800 = some (.unrecognized 26)

/-- From R85: the line a well-formed instruction is written as stands for that instruction; every line
that stands for an instruction stands for a well-formed one that has a line; only an unrecognized word
has none; and the field mapping of every format, for every mnemonic: which operand is which field, and
which numbers an amount may be. (LI and the form of a line are the model's: DESIGN CHOICE, logs 8 and
16.) -/
def Obligations.AssemblyRoundTrip : Prop :=
  (∀ (p : Params) (i : Instr) (l : AsmLine), i.wellFormed p = true → asmLine i = some l →
    assembleLine p l = some i) ∧
  (∀ (p : Params) (l : AsmLine) (i : Instr), assembleLine p l = some i →
    i.wellFormed p = true ∧ asmLine i ≠ none) ∧
  (∀ i : Instr, asmLine i = none ↔ ∃ op6, i = .unrecognized op6) ∧
  ∀ (p : Params) (a b c : Reg) (imm : Word) (n : Nat),
    (∀ x ∈ [(Op.add, Instr.add), (.sub, .sub), (.and, .and), (.or, .or), (.xor, .xor),
        (.slt, .slt), (.sll, .sll), (.srl, .srl), (.sra, .sra)],
      assembleLine p ⟨.op x.1, [.reg a, .reg b, .reg c]⟩ = some (x.2 a b c)) ∧
    (∀ x ∈ [(Op.not, Instr.not), (.mv, .mv)],
      assembleLine p ⟨.op x.1, [.reg a, .reg b]⟩ = some (x.2 a b)) ∧
    (∀ x ∈ [(Op.slli, Instr.slli), (.srli, .srli), (.srai, .srai)],
      assembleLine p ⟨.op x.1, [.reg a, .reg b, .imm n]⟩
        = if n ≤ 7 then some (x.2 a b (BitVec.ofNat 3 n)) else none) ∧
    assembleLine p ⟨.op .addi, [.reg a, .reg b, .imm imm.toNat]⟩
      = some (if b = .r0 then .li a imm else .addi a b imm) ∧
    assembleLine p ⟨.op .lw, [.reg a, .reg b, .imm imm.toNat]⟩ = some (.lw a b imm) ∧
    (p.sltiForm = .imm16 →
      assembleLine p ⟨.op .slti, [.reg a, .reg b, .imm imm.toNat]⟩
        = some (.slti a b (.imm16 imm))) ∧
    (p.sltiForm = .field3 →
      assembleLine p ⟨.op .slti, [.reg a, .reg b, .imm n]⟩
        = if n ≤ 7 then some (.slti a b (.field3 (BitVec.ofNat 3 n))) else none) ∧
    assembleLine p ⟨.li, [.reg a, .imm imm.toNat]⟩ = some (.li a imm) ∧
    asmLine (.li a imm) = some ⟨.li, [.reg a, .imm imm.toNat]⟩ ∧
    assembleLine p ⟨.op .sw, [.reg c, .reg b, .imm imm.toNat]⟩ = some (.sw b c imm) ∧
    (∀ x ∈ [(Op.bra, Instr.bra), (.brz, .brz), (.brnz, .brnz), (.brn, .brn), (.brc, .brc),
        (.brv, .brv)],
      assembleLine p ⟨.op x.1, [.imm imm.toNat]⟩ = some (x.2 imm)) ∧
    assembleLine p ⟨.op .stop, []⟩ = some .stop

-- ## The step (spec/40_execution_cycle.md)

/-- R101, R102, R103, R108: when the bytes at the pc decode to `i`, the step is the execution of `i`. The
immediate's two bytes are those of the aligned word at `pc + 2`, modulo 2^16. Nothing is added around
`exec`: the pc is moved by the instruction. -/
def Obligations.StepRunsDecoded : Prop :=
  ∀ (s : State) (i : Instr) (rest : List Byte), s.run = .running →
    decode s.params
      [s.readByte (align s.pc), s.readByte (align s.pc + 1),
       s.readByte (align (s.pc + 2)), s.readByte (align (s.pc + 2) + 1)] = .ok (i, rest) →
    step s = exec i s

/-- R109: the step is total from every running state, and every instruction is. -/
def Obligations.StepTotal : Prop :=
  (∀ s : State, s.run = .running → ∃ t, step s = .next t) ∧
  ∀ (i : Instr) (s : State), ∃ t, exec i s = .next t

/-- R34: every launch is Running; a running state executes one instruction; Halted is entered only by
STOP, and no step leaves it. -/
def Obligations.HaltedOnlyByStop : Prop :=
  (∀ (p : Params) (x : Regs) (f : Flags) (image : List (Word × Byte)),
    (State.launch p x f image).run = .running) ∧
  (∀ s : State, s.run = .running → step s = exec s.fetch s) ∧
  (∀ s t : State, step s = .next t → (t.run = .halted ↔ s.fetch = .stop)) ∧
  ∀ s t : State, s.run = .halted → step s ≠ .next t

/-- The step of a halted state is the fault `halted`: the model's name for "the CORE has no step"
(DESIGN CHOICE, log 5). -/
def Obligations.HaltedStepFaults : Prop :=
  ∀ s : State, s.run = .halted → step s = .fault .halted

/-- Every step keeps the invariant: memory canonical, OPC injective. -/
def Obligations.StepKeepsInvariant : Prop :=
  ∀ s t : State, s.inv → step s = .next t → t.inv

/-- The invariant holds at reset, and wherever a run begins: at every launch with an injective OPC, for
every INIT_REGS, INIT_FLAGS and image. -/
def Obligations.ResetMeetsInvariant : Prop :=
  State.reset.inv ∧
  ∀ (p : Params) (x : Regs) (f : Flags) (image : List (Word × Byte)), p.wf →
    (State.launch p x f image).inv

/-- R47, R250, R253: the state in which a run begins, for every INIT_REGS, INIT_FLAGS and IMAGE. -/
def Obligations.LaunchState : Prop :=
  ∀ (p : Params) (x : Regs) (f : Flags) (image : List (Word × Byte)),
    (image.map Prod.fst).Nodup →
    let s := State.launch p x f image
    s.pc = 0x0000 ∧ s.run = .running ∧ s.readReg .r0 = 0x0000 ∧ s.regs = x ∧ s.flags = f ∧
    s.params = p ∧
    (∀ a v, (a, v) ∈ image → s.readByte a = v) ∧
    ∀ a, a ∉ image.map Prod.fst → s.readByte a = 0x00

/-- State.reset is the launch with no image, the reference parameters (R10), and the model's own zeros
in the registers, the flags and the draw counter (DESIGN CHOICE, logs 1, 2 and 4). -/
def Obligations.ResetIsReferenceLaunch : Prop :=
  State.reset = State.launch Params.reference ⟨0, 0, 0, 0, 0, 0, 0⟩ ⟨false, false, false, false⟩ [] ∧
  State.reset.draws = 0 ∧ ∀ a, State.reset.readByte a = 0

/-- From R28, by the table of R29 (whose data-movement class is the spec's own decision, D5): a flag an
instruction does not write keeps its value; the new value of one it does write does not depend on the
flags before. -/
def Obligations.FlagWriters : Prop :=
  (∀ (i : Instr) (s t : State) (f : Flag), exec i s = .next t → writesFlag s.params i f = false →
    t.flags.get f = s.flags.get f) ∧
  ∀ (i : Instr) (s t t' : State) (g : Flags) (f : Flag), exec i s = .next t →
    exec i { s with flags := g } = .next t' → writesFlag s.params i f = true →
    t.flags.get f = t'.flags.get f

/-- From R35, R55: a step changes a byte only if its instruction is a store, and then only in the
aligned word stored to. -/
def Obligations.OnlyStoresChangeMemory : Prop :=
  ∀ (s t : State) (a : Word), step s = .next t → t.readByte a ≠ s.readByte a →
    ∃ ea, storeAddress s s.fetch = some ea ∧ align a = align ea

/-- From R26, with the lists of R24 (which the spec marks derived): at most the destination register
changes, and nothing an instruction does depends on a register it does not read. -/
def Obligations.RegistersReadAndWritten : Prop :=
  (∀ (i : Instr) (s t : State) (q : Reg), exec i s = .next t → writtenReg i ≠ some q →
    t.readReg q = s.readReg q) ∧
  ∀ (i : Instr) (s t t' : State) (x : Regs), (∀ r ∈ readRegs i, s.readReg r = x.read r) →
    exec i s = .next t → exec i { s with regs := x } = .next t' →
    t'.flags = t.flags ∧ t'.draws = t.draws ∧ t'.pc = t.pc ∧ t'.mem = t.mem ∧ t'.run = t.run ∧
    ∀ rd, writtenReg i = some rd → t'.readReg rd = t.readReg rd

/-- R30: only the conditional branches depend on a flag, each on its own one alone. -/
def Obligations.FlagsReadOnlyByBranches : Prop :=
  ∀ (i : Instr) (s t t' : State) (g : Flags),
    (∀ f, readFlag i = some f → s.flags.get f = g.get f) →
    exec i s = .next t → exec i { s with flags := g } = .next t' →
    t'.regs = t.regs ∧ t'.pc = t.pc ∧ t'.mem = t.mem ∧ t'.run = t.run ∧ t'.draws = t.draws

/-- From R107 (D9: the wrap is the spec's own decision): the next pc is `pc + len`, modulo 2^16, but for a taken branch and for STOP. -/
def Obligations.NextPc : Prop :=
  ∀ (i : Instr) (s t : State), exec i s = .next t →
    t.pc = (takenTarget s.flags i).getD
      (if i = .stop ∧ s.params.stopPc = .hold then s.pc else s.pc + i.length)

/-- From R33 and 92_eei_decisions.md D10: sequential advance keeps the parity of the pc, and a step at
an odd pc does what the step at the even address below does, but for bit 0 of the pc. -/
def Obligations.OddPcRunsAligned : Prop :=
  ∀ s t : State, step s = .next t →
    (takenTarget s.flags s.fetch = none → t.pc.getLsbD 0 = s.pc.getLsbD 0) ∧
    ∃ t', step { s with pc := align s.pc } = .next t' ∧ t' = { t with pc := t'.pc } ∧
      align t'.pc = align t.pc

/-- R110: under `preserve` no free draw is used, and the step does not depend on the draw counter. -/
def Obligations.ReferenceStepUsesNoDraw : Prop :=
  ∀ (s t : State) (k : Nat), s.params.flagsUnlisted = .preserve → s.params.logicCv ≠ .havoc →
    step s = .next t → t.draws = s.draws ∧ step { s with draws := k } = .next { t with draws := k }

/-- No step changes the parameters (log 3). -/
def Obligations.ParamsNeverChange : Prop :=
  ∀ s t : State, step s = .next t → t.params = s.params

/-- The instruction `withFetchWord` places is the one the next step runs (log 6). -/
def Obligations.PlacedInstructionRuns : Prop :=
  ∀ (s : State) (nbits w : Nat),
    step (s.withFetchWord nbits w)
      = exec (decodeWords s.params (tableFirstWord nbits w) (tableSecondWord nbits w))
          (s.withFetchWord nbits w)

-- ## Memory and registers

/-- R66: a word read after a word write, and a write at an odd address. The second clause also says that
a write leaves every other aligned word alone. -/
def Obligations.WordReadAfterWrite : Prop :=
  ∀ (m : List Host.Cell) (a b v : Word),
    (align b = align a → Memory.readWord (Memory.writeWord m a v) b = v) ∧
    (align b ≠ align a → Memory.readWord (Memory.writeWord m a v) b = Memory.readWord m b) ∧
    Memory.writeWord m a v = Memory.writeWord m (a ||| 1) v

/-- R50, R51, R52: which bytes a word read composes and a word write stores. -/
def Obligations.WordAccessBytes : Prop :=
  ∀ (m : List Host.Cell) (a v : Word),
    let e := (a &&& 0xFFFE#16).toNat
    Memory.readWord m a = Memory.readByte m e ++ Memory.readByte m (e + 1) ∧
    Memory.readByte (Memory.writeWord m a v) e = v.extractLsb' 8 8 ∧
    Memory.readByte (Memory.writeWord m a v) (e + 1) = v.extractLsb' 0 8 ∧
    (∀ q, q ≠ e → q ≠ e + 1 → Memory.readByte (Memory.writeWord m a v) q = Memory.readByte m q) ∧
    Memory.readWord m (a ||| 1) = Memory.readWord m (a &&& 0xFFFE#16)

/-- R22: register 0 reads 0 and discards writes; every other register holds what was last written. -/
def Obligations.RegisterZeroIsHardWired : Prop :=
  ∀ (x : Regs) (r q : Reg) (v : Word),
    x.read .r0 = 0x0000 ∧ x.write .r0 v = x ∧
    (r ≠ .r0 → (x.write r v).read r = v) ∧ (q ≠ r → (x.write r v).read q = x.read q)

/-- From R153 (which the spec marks derived): a load from the aligned word of an earlier store, with no store to that word in between, loads
the stored value. -/
def Obligations.StoreThenLoad : Prop :=
  ∀ (k : Nat) (s s₁ s₂ : State) (rs1 rs2 rd base : Reg) (imm imm₂ : Word),
    s.fetch = .sw rs1 rs2 imm → step s = .next s₁ →
    RunsWhile (SparesWord (s.effectiveAddress rs1 imm)) k s₁ s₂ →
    s₂.run = .running → s₂.fetch = .lw rd base imm₂ →
    align (s₂.effectiveAddress base imm₂) = align (s.effectiveAddress rs1 imm) →
    ∃ t, step s₂ = .next t ∧ (rd ≠ .r0 → t.readReg rd = s.readReg rs2)

/-- R259: a stored word is what a later fetch of that word reads, as instruction word or as immediate
word, until another store to it; the very next instruction included. -/
def Obligations.LaterFetchSeesStore : Prop :=
  ∀ (k : Nat) (s s₁ u : State) (rs1 rs2 : Reg) (imm : Word),
    s.fetch = .sw rs1 rs2 imm → step s = .next s₁ →
    RunsWhile (SparesWord (s.effectiveAddress rs1 imm)) k s₁ u →
    (align u.pc = align (s.effectiveAddress rs1 imm) → u.fetchWord = s.readReg rs2) ∧
    (wordExtended u.params u.fetchWord = true →
      align (u.pc + 2) = align (s.effectiveAddress rs1 imm) → u.fetchImm = s.readReg rs2)

-- ## The host (spec/70_reset_and_hazards.md R260 to R263)

/-- From R260 and R262 (D18: that a stop changes no state is the spec's own decision; the form of the stop
condition is log 12): the run loop takes k steps, none past a halt, a stop request or the step limit, and ends
for one of these reasons in exactly the state after the k-th step. -/
def Obligations.RunLoopStopsBetweenSteps : Prop :=
  ∀ (stop : State → Bool) (limit : Nat) (s : State),
    ∃ (t : State) (k : Nat), runLoop stop limit s = .next t ∧ k ≤ limit ∧
      RunsWhile (fun u => u.run = .running ∧ stop u = false) k s t ∧
      (t.run = .halted ∨ stop t = true ∨ k = limit)

/-- From R46, R231: the host reads register k for k < 8, r0 as 0, and is refused any other index. -/
def Obligations.RegisterInspection : Prop :=
  ∀ (s : State) (k : Nat),
    inspectRegister 0 s = .ok 0x0000 ∧
    (∀ r : Reg, inspectRegister r.toBits.toNat s = .ok (s.readReg r)) ∧
    (8 ≤ k → inspectRegister k s = .error (.registerIndexOutOfRange k))

-- ## The condition-code unit (spec/10_state.md R31)

/-- From R31: what get reads after a set or a reset; "all flags" holds in every flag setting, "no flags" in
none (that reading of the combinator is DEDUCED, log 17), and one flag set or clear as R202 has them;
and a branch is taken exactly when its predicate holds of the flags before it, BRA's being "all
flags". -/
def Obligations.BranchPredicates : Prop :=
  (∀ (f : Flags) (b : Bool) (g : Flag), (f.put b g).get g = b) ∧
  (∀ (f : Flags) (b : Bool) (g h : Flag), h ≠ g → (f.put b g).get h = f.get h) ∧
  (∀ f : Flags, f.test .allFlags = true ∧ f.test .noFlags = false) ∧
  (∀ (f : Flags) (g : Flag), (f.test (.isSet g) = true ↔ f.get g = true) ∧
    (f.test (.isClear g) = true ↔ f.get g = false)) ∧
  ∀ (s : State) (imm : Word),
    ∀ x ∈ [(Instr.bra imm, BranchPredicate.allFlags), (.brz imm, .isSet .zero),
        (.brnz imm, .isClear .zero), (.brn imm, .isSet .negative), (.brc imm, .isSet .carry),
        (.brv imm, .isSet .overflow)],
      OnlyJumps x.1 s (if s.flags.test x.2 = true then imm else s.pc + 4)
end

