-- ==== Sys2Proof/Laws/Decode.lean ====
section
/-! SUPPORT. The decoder's parts: register names and their fields, the fields of a packed word, and the
lookup of a major opcode. -/

namespace Sys2Proof

theorem Reg.ofBits_toBits (r : Reg) : Reg.ofBits r.toBits = r := by
  cases r <;> rfl

theorem Reg.toBits_ofBits (b : BitVec 3) : (Reg.ofBits b).toBits = b := by
  revert b
  decide

theorem Op.mem_all (op : Op) : op ∈ Op.all := by
  cases op <;> decide

/-- Each field of a word is a run of its bits (spec/30_encoding.md R73). -/
theorem decodeFields_op6 (w : Word) : (decodeFields w).op6 = w.extractLsb' 10 6 := by
  ext i hi
  simp only [decodeFields, Fields.op6]
  interval_cases i <;> simp

theorem decodeFields_rd (w : Word) : (decodeFields w).rd = w.extractLsb' 6 3 := by
  ext i hi
  simp only [decodeFields]
  interval_cases i <;> simp

theorem decodeFields_rs1 (w : Word) : (decodeFields w).rs1 = w.extractLsb' 3 3 := by
  ext i hi
  simp only [decodeFields]
  interval_cases i <;> simp

theorem decodeFields_rs2 (w : Word) : (decodeFields w).rs2 = w.extractLsb' 0 3 := by
  ext i hi
  simp only [decodeFields]
  interval_cases i <;> simp

/-- The four parts of a packed word, as a number (spec/30_encoding.md R75). -/
theorem packWord_toNat (op6 : BitVec 6) (rd rs1 rs2 : BitVec 3) :
    (packWord op6 rd rs1 rs2).toNat
      = op6.toNat * 1024 + rd.toNat * 64 + rs1.toNat * 8 + rs2.toNat := by
  have h : ∀ {n m : Nat} (x : BitVec n) (y : BitVec m),
      (x ++ y).toNat = x.toNat * 2 ^ m + y.toNat := fun x y => by
    rw [BitVec.toNat_append, ← Nat.shiftLeft_add_eq_or_of_lt y.isLt, Nat.shiftLeft_eq]
  have e : (packWord op6 rd rs1 rs2).toNat
      = (((((op6 ++ 0#1 : BitVec (6 + 1)) ++ rd : BitVec (6 + 1 + 3)) ++ rs1 :
          BitVec (6 + 1 + 3 + 3)) ++ rs2 : BitVec (6 + 1 + 3 + 3 + 3))).toNat := rfl
  rw [e, h, h, h, h]
  simp
  omega

/-- A mnemonic found for a code has that code. -/
theorem Opc.lookup_some {o : Opc} {c : BitVec 6} {op : Op} (h : o.lookup c = some op) :
    o.code op = c := by
  simpa using List.find?_some h

/-- Under an injective OPC the lookup inverts the map. -/
theorem Opc.lookup_code {o : Opc} (ho : o.injective) (op : Op) : o.lookup (o.code op) = some op := by
  unfold Opc.lookup
  cases h : Op.all.find? (fun a => o.code a == o.code op) with
  | none => simpa using List.find?_eq_none.1 h op op.mem_all
  | some a =>
    have hc : o.code a = o.code op := by simpa using List.find?_some h
    rw [ho a a.mem_all op op.mem_all hc]

/-- A code is found exactly when some mnemonic has it. -/
theorem Opc.lookup_eq_none_iff (o : Opc) (c : BitVec 6) : o.lookup c = none ↔ o.assigns c = false := by
  simp [Opc.lookup, Opc.assigns, List.find?_eq_none]

/-- A word is its two bytes. -/
theorem Word.bytes_append (w : Word) : w.extractLsb' 8 8 ++ w.extractLsb' 0 8 = w := by
  ext i hi
  simp only [BitVec.getElem_append]
  interval_cases i <;> simp

/-- Reading an instruction of one word from bytes. -/
theorem decode_plain (p : Params) (b₀ b₁ : Byte) (rest : List Byte)
    (h : wordExtended p (b₀ ++ b₁) = false) :
    decode p (b₀ :: b₁ :: rest) = .ok (decodeWords p (b₀ ++ b₁) 0, rest) := by
  simp [decode, h]

/-- Reading an instruction of two words from bytes. -/
theorem decode_extended (p : Params) (b₀ b₁ b₂ b₃ : Byte) (rest : List Byte)
    (h : wordExtended p (b₀ ++ b₁) = true) :
    decode p (b₀ :: b₁ :: b₂ :: b₃ :: rest) = .ok (decodeWords p (b₀ ++ b₁) (b₂ ++ b₃), rest) := by
  simp [decode, h]

/-- An immediate word is used only after an extended instruction word (spec/40_execution_cycle.md R103). -/
theorem decodeWords_imm_unused (p : Params) (w imm imm' : Word) (h : wordExtended p w = false) :
    decodeWords p w imm = decodeWords p w imm' := by
  unfold wordExtended at h
  unfold decodeWords
  cases hop : p.opc.lookup (decodeFields w).op6 with
  | none => rfl
  | some op =>
    simp only [hop] at h
    cases op <;> simp_all [Op.extended, buildInstr]
    cases hf : p.sltiForm <;> simp_all

end Sys2Proof
end

