-- ==== Sys2Proof/Laws/State.lean ====
section
/-! SUPPORT. One lemma per field of State for each operation that builds a state, an effect or a flag
write, so that no proof unfolds a record update. -/

namespace Sys2Proof.Machine

variable (s : State)

-- commit
@[simp] theorem State.commit_regs (e : Effect) : (s.commit e).regs = s.regs.apply e.reg := rfl
@[simp] theorem State.commit_flags (e : Effect) : (s.commit e).flags = e.cc.flags := rfl
@[simp] theorem State.commit_pc (e : Effect) : (s.commit e).pc = e.pc := rfl
@[simp] theorem State.commit_mem (e : Effect) : (s.commit e).mem = Memory.apply s.mem e.mem := rfl
@[simp] theorem State.commit_run (e : Effect) : (s.commit e).run = e.run := rfl
@[simp] theorem State.commit_params (e : Effect) : (s.commit e).params = s.params := rfl
@[simp] theorem State.commit_draws (e : Effect) : (s.commit e).draws = e.cc.draws := rfl

-- jump
@[simp] theorem State.jump_reg (a : Word) : (s.jump a).reg = none := rfl
@[simp] theorem State.jump_cc (a : Word) : (s.jump a).cc = s.keepFlags := rfl
@[simp] theorem State.jump_mem (a : Word) : (s.jump a).mem = none := rfl
@[simp] theorem State.jump_pc (a : Word) : (s.jump a).pc = a := rfl
@[simp] theorem State.jump_run (a : Word) : (s.jump a).run = s.run := rfl

-- flag writes
@[simp] theorem State.keepFlags_flags : s.keepFlags.flags = s.flags := rfl
@[simp] theorem State.keepFlags_draws : s.keepFlags.draws = s.draws := rfl
@[simp] theorem State.writeFlags_flags (f : Flags) : (s.writeFlags f).flags = f := rfl
@[simp] theorem State.writeFlags_draws (f : Flags) : (s.writeFlags f).draws = s.draws := rfl

-- the condition-code unit
@[simp] theorem Flags.get_put (f : Flags) (b : Bool) (g h : Flag) :
    (f.put b g).get h = if h = g then b else f.get h := by
  cases g <;> cases h <;> rfl
@[simp] theorem Flags.test_allFlags (f : Flags) : f.test .allFlags = true := rfl
@[simp] theorem Flags.test_noFlags (f : Flags) : f.test .noFlags = false := rfl
@[simp] theorem Flags.test_isSet (f : Flags) (g : Flag) : f.test (.isSet g) = f.get g := rfl
@[simp] theorem Flags.test_isClear (f : Flags) (g : Flag) : f.test (.isClear g) = !f.get g := rfl

-- optional writes
@[simp] theorem Regs.apply_none (x : Regs) : x.apply none = x := rfl
@[simp] theorem Regs.apply_some (x : Regs) (rd : Reg) (v : Word) :
    x.apply (some (rd, v)) = x.write rd v := rfl
@[simp] theorem Memory.apply_none (m : List Host.Cell) : Memory.apply m none = m := rfl
@[simp] theorem Memory.apply_some (m : List Host.Cell) (a v : Word) :
    Memory.apply m (some (a, v)) = Memory.writeWord m a v := rfl

-- load
@[simp] theorem State.load_regs (im : List (Word × Byte)) : (s.load im).regs = s.regs := rfl
@[simp] theorem State.load_flags (im : List (Word × Byte)) : (s.load im).flags = s.flags := rfl
@[simp] theorem State.load_pc (im : List (Word × Byte)) : (s.load im).pc = s.pc := rfl
@[simp] theorem State.load_run (im : List (Word × Byte)) : (s.load im).run = s.run := rfl
@[simp] theorem State.load_params (im : List (Word × Byte)) : (s.load im).params = s.params := rfl
@[simp] theorem State.load_draws (im : List (Word × Byte)) : (s.load im).draws = s.draws := rfl

-- withFetchWord
@[simp] theorem State.withFetchWord_regs (n w : Nat) : (s.withFetchWord n w).regs = s.regs := rfl
@[simp] theorem State.withFetchWord_flags (n w : Nat) : (s.withFetchWord n w).flags = s.flags := rfl
@[simp] theorem State.withFetchWord_pc (n w : Nat) : (s.withFetchWord n w).pc = s.pc := rfl
@[simp] theorem State.withFetchWord_run (n w : Nat) : (s.withFetchWord n w).run = .running := rfl
@[simp] theorem State.withFetchWord_params (n w : Nat) :
    (s.withFetchWord n w).params = s.params := rfl
@[simp] theorem State.withFetchWord_draws (n w : Nat) :
    (s.withFetchWord n w).draws = s.draws := rfl

end Sys2Proof.Machine
end

