-- ==== Sys2Proof/Laws/Registers.lean ====
section
/-! SUPPORT. What a register read sees after a write (spec/10_state.md R22, R25). -/

namespace Sys2Proof.Machine

/-- The one law of the register file. -/
theorem Regs.read_write (x : Regs) (r q : Reg) (v : Word) :
    (x.write r v).read q = if q = r ∧ q ≠ .r0 then v else x.read q := by
  cases r <;> cases q <;> rfl

theorem State.readReg_commit_none (s : State) (e : Effect) (h : e.reg = none) (q : Reg) :
    (s.commit e).readReg q = s.readReg q := by
  simp [State.readReg, h]

theorem State.readReg_commit_some (s : State) (e : Effect) (rd : Reg) (v : Word)
    (h : e.reg = some (rd, v)) (q : Reg) :
    (s.commit e).readReg q = if q = rd ∧ q ≠ .r0 then v else s.readReg q := by
  simp [State.readReg, h, Regs.read_write]

end Sys2Proof.Machine
end

