-- ==== Sys2Proof/Laws/Exec.lean ====
section
/-! SUPPORT. What each shared ending of an instruction does, and the inversion of `exec`: the five shapes
a step can have. -/

namespace Sys2Proof.Machine

/-- Everything `writeBack` does. -/
theorem State.writeBack_spec (s : State) (rd : Reg) (v : Word) (cc : FlagWrite) (len : Word) :
    ∃ t, s.writeBack rd v cc len = .next t ∧
      (∀ q, t.readReg q = if q = rd ∧ q ≠ .r0 then v else s.readReg q) ∧
      t.flags = cc.flags ∧ t.draws = cc.draws ∧ t.pc = s.pc + len ∧ t.mem = s.mem ∧
      t.run = s.run ∧ t.params = s.params :=
  ⟨_, rfl, State.readReg_commit_some s _ rd v rfl, rfl, rfl, rfl, rfl, rfl, rfl⟩

/-- Everything `storeWord` does. -/
theorem State.storeWord_spec (s : State) (ea v : Word) :
    ∃ t, s.storeWord ea v = .next t ∧ (∀ q, t.readReg q = s.readReg q) ∧
      t.flags = s.flags ∧ t.draws = s.draws ∧ t.pc = s.pc + 4 ∧
      t.mem = Memory.writeWord s.mem ea v ∧ t.run = s.run ∧ t.params = s.params :=
  ⟨_, rfl, fun _ => rfl, rfl, rfl, rfl, rfl, rfl, rfl⟩

/-- Everything `branch` does. -/
theorem State.branch_spec (s : State) (taken : Bool) (imm : Word) :
    ∃ t, s.branch taken imm = .next t ∧ (∀ q, t.readReg q = s.readReg q) ∧
      t.flags = s.flags ∧ t.draws = s.draws ∧ t.pc = (if taken then imm else s.pc + 4) ∧
      t.mem = s.mem ∧ t.run = s.run ∧ t.params = s.params :=
  ⟨_, rfl, fun _ => rfl, rfl, rfl, rfl, rfl, rfl, rfl⟩

/-- The five shapes an instruction can have. -/
theorem exec_shape (i : Instr) (s : State) :
    (∃ rd v cc len, exec i s = s.writeBack rd v cc len) ∨
    (∃ rs1 rs2 imm, i = .sw rs1 rs2 imm ∧
      exec i s = s.storeWord (s.effectiveAddress rs1 imm) (s.readReg rs2)) ∨
    (∃ taken imm, exec i s = s.branch taken imm) ∨
    (i = .stop ∧ ∃ pc, exec i s = .next (s.commit { s.jump pc with run := .halted })) ∨
    (∃ op6, i = .unrecognized op6 ∧ exec i s = .next (s.commit (s.jump (s.pc + 2)))) := by
  cases i
  case sw rs1 rs2 imm => exact .inr (.inl ⟨rs1, rs2, imm, rfl, rfl⟩)
  case stop => exact .inr (.inr (.inr (.inl ⟨rfl, _, rfl⟩)))
  case unrecognized op6 => exact .inr (.inr (.inr (.inr ⟨op6, rfl, rfl⟩)))
  case bra | brz | brnz | brn | brc | brv => exact .inr (.inr (.inl ⟨_, _, rfl⟩))
  all_goals exact .inl ⟨_, _, _, _, rfl⟩

/-- Every instruction ends by committing one effect. -/
theorem exec_commits (i : Instr) (s : State) : ∃ e, exec i s = .next (s.commit e) := by
  rcases exec_shape i s with ⟨rd, v, cc, len, h⟩ | ⟨rs1, rs2, imm, -, h⟩ | ⟨taken, imm, h⟩ |
    ⟨-, pc, h⟩ | ⟨op6, -, h⟩ <;> exact ⟨_, h⟩

/-- A step is the execution of the fetched instruction, from a running state. -/
theorem step_inversion {s t : State} (h : step s = .next t) :
    s.run = .running ∧ exec s.fetch s = .next t := by
  unfold step at h
  split at h
  · exact ⟨‹_›, h⟩
  · cases h

end Sys2Proof.Machine
end

