-- ==== Sys2Proof/Laws/Memory.lean ====
section
/-! SUPPORT. The laws of the byte memory: what a byte read sees after a byte write, over any list, and
that every memory operation keeps the canonical form. -/

namespace Sys2Proof.Machine

theorem Memory.readByte_filter_ne (m : List Host.Cell) (a b : Nat) :
    Memory.readByte (m.filter fun c => c.1 != a) b
      = if b = a then unlistedByte else Memory.readByte m b := by
  induction m with
  | nil => simp [Memory.readByte]
  | cons c rest ih =>
    by_cases hc : c.1 = a
    · rw [List.filter_cons_of_neg (by simp [hc]), ih]
      by_cases hb : b = a
      · simp [hb]
      · simp [hb, Memory.readByte, show c.1 ≠ b by omega]
    · rw [List.filter_cons_of_pos (by simpa using hc)]
      by_cases hcb : c.1 = b
      · simp [Memory.readByte, hcb, show b ≠ a by omega]
      · simp [Memory.readByte, hcb, ih]

theorem Memory.readByte_insert (m : List Host.Cell) (a b : Nat) (v : Byte)
    (hm : ∀ c ∈ m, c.1 ≠ a) :
    Memory.readByte (Memory.insert a v m) b = if b = a then v else Memory.readByte m b := by
  induction m with
  | nil => simp [Memory.insert, Memory.readByte, eq_comm]
  | cons c rest ih =>
    have hc : c.1 ≠ a := hm c (by simp)
    have ih := ih fun d hd => hm d (by simp [hd])
    unfold Memory.insert
    split
    · simp [Memory.readByte, eq_comm]
    · by_cases hb : b = a
      · subst hb
        simp [Memory.readByte, ih, hc]
      · simp [Memory.readByte, ih, hb]

/-- The one law of byte memory: a read after a write. -/
theorem Memory.readByte_writeByte (m : List Host.Cell) (a b : Nat) (v : Byte) :
    Memory.readByte (Memory.writeByte m a v) b = if b = a then v else Memory.readByte m b := by
  unfold Memory.writeByte
  split
  next h => simp [Memory.readByte_filter_ne, h]
  next =>
    rw [Memory.readByte_insert _ _ _ _ (by simp), Memory.readByte_filter_ne]
    split <;> rfl

-- ## The canonical form

theorem Memory.wf_nil : Memory.wf [] := by decide

theorem Memory.mem_insert (a : Nat) (v : Byte) (m : List Host.Cell) (c : Host.Cell) :
    c ∈ Memory.insert a v m ↔ c = (a, v) ∨ c ∈ m := by
  induction m with
  | nil => simp [Memory.insert]
  | cons d rest ih =>
    unfold Memory.insert
    split
    · simp
    · simp only [List.mem_cons, ih]
      tauto

theorem Memory.wf_insert (m : List Host.Cell) (a : Nat) (v : Byte) (hm : Memory.wf m)
    (ha : a < 65536) (hv : v ≠ unlistedByte) (hne : ∀ c ∈ m, c.1 ≠ a) :
    Memory.wf (Memory.insert a v m) := by
  refine ⟨?_, ?_⟩
  · have hs := hm.1
    clear hm
    induction m with
    | nil => simp [Memory.insert]
    | cons c rest ih =>
      have hc : c.1 ≠ a := hne c (by simp)
      obtain ⟨h1, h2⟩ := List.pairwise_cons.1 hs
      unfold Memory.insert
      split
      next hlt =>
        refine List.pairwise_cons.2 ⟨fun d hd => ?_, hs⟩
        rcases List.mem_cons.1 hd with rfl | hd
        · exact hlt
        · exact lt_trans hlt (h1 d hd)
      next hge =>
        refine List.pairwise_cons.2 ⟨fun d hd => ?_, ih (fun d hd => hne d (by simp [hd])) h2⟩
        rcases (Memory.mem_insert a v rest d).1 hd with rfl | hd
        · show c.1 < a
          omega
        · exact h1 d hd
  · intro c hc
    rcases (Memory.mem_insert a v m c).1 hc with rfl | hc
    · exact ⟨ha, hv⟩
    · exact hm.2 c hc

theorem Memory.wf_filter (m : List Host.Cell) (f : Host.Cell → Bool) (hm : Memory.wf m) :
    Memory.wf (m.filter f) :=
  ⟨hm.1.filter f, fun c hc => hm.2 c (List.mem_filter.1 hc).1⟩

theorem Memory.wf_writeByte (m : List Host.Cell) (a : Nat) (v : Byte) (hm : Memory.wf m)
    (ha : a < 65536) : Memory.wf (Memory.writeByte m a v) := by
  unfold Memory.writeByte
  split
  · exact Memory.wf_filter m _ hm
  next hv => exact Memory.wf_insert _ a v (Memory.wf_filter m _ hm) ha hv (by simp)

theorem Memory.wf_writeWord (m : List Host.Cell) (a v : Word) (hm : Memory.wf m) :
    Memory.wf (Memory.writeWord m a v) :=
  Memory.wf_writeByte _ _ _ (Memory.wf_writeByte _ _ _ hm (BitVec.isLt _)) (BitVec.isLt _)

theorem Memory.wf_apply (m : List Host.Cell) (w : Option (Word × Word)) (hm : Memory.wf m) :
    Memory.wf (Memory.apply m w) := by
  cases w with
  | none => exact hm
  | some w => exact Memory.wf_writeWord m w.1 w.2 hm

theorem State.wf_load (s : State) (im : List (Word × Byte)) (h : Memory.wf s.mem) :
    Memory.wf (s.load im).mem := by
  show Memory.wf (im.foldl (fun m c => Memory.writeByte m c.1.toNat c.2) s.mem)
  generalize s.mem = m at h
  induction im generalizing m with
  | nil => exact h
  | cons c rest ih => exact ih _ (Memory.wf_writeByte m _ _ h (BitVec.isLt _))

theorem State.wf_withFetchWord (s : State) (n w : Nat) (h : Memory.wf s.mem) :
    Memory.wf (s.withFetchWord n w).mem :=
  Memory.wf_writeWord _ _ _ (Memory.wf_writeWord _ _ _ h)

theorem State.wf_reset : Memory.wf State.reset.mem := Memory.wf_nil

-- ## Alignment

/-- The two addresses of an aligned word as numbers. -/
theorem align_toNat (a : Word) : (align a).toNat = a.toNat / 2 * 2 := by
  have h : ∀ n < 65536, n &&& 65534 = n / 2 * 2 := by
    intro n hn
    apply Nat.eq_of_testBit_eq
    intro i
    have hd : (n / 2 * 2).testBit i = (decide (1 ≤ i) && n.testBit i) := by
      rw [show n / 2 * 2 = n / 2 * 2 ^ 1 by rw [pow_one], Nat.testBit_mul_two_pow,
        show n / 2 = n >>> 1 from rfl, Nat.testBit_shiftRight]
      by_cases hi : 1 ≤ i
      · simp [hi, show 1 + (i - 1) = i by omega]
      · simp [hi]
    rw [Nat.testBit_and, hd]
    by_cases h16 : i < 16
    · have : ∀ j < 16, Nat.testBit 65534 j = decide (1 ≤ j) := by decide
      rw [this i h16, Bool.and_comm]
    · have hz : n.testBit i = false :=
        Nat.testBit_lt_two_pow (lt_of_lt_of_le hn (by
          calc 65536 = 2 ^ 16 := by norm_num
            _ ≤ 2 ^ i := Nat.pow_le_pow_right (by norm_num) (by omega)))
      simp [hz]
  simpa [align] using h a.toNat a.isLt

theorem align_succ_toNat (a : Word) : (align a + 1).toNat = a.toNat / 2 * 2 + 1 := by
  have h := align_toNat a
  have := a.isLt
  rw [BitVec.toNat_add, h]
  show (a.toNat / 2 * 2 + 1) % 65536 = _
  omega

end Sys2Proof.Machine
end

