-- ==== Sys2Proof/Laws/PerInstr.lean ====
section
/-! SUPPORT. Statements about every instruction as syntax, one lemma per constructor. -/

namespace Sys2Proof.Laws

/-- The words an instruction is encoded in fill its length (spec/30_encoding.md R77). -/
def EncodedLength.Statement (i : Instr) : Prop :=
  ∀ p : Params, (wordsToBytes (encode p i)).length = i.length.toNat

theorem EncodedLength.add (rd rs1 rs2 : Reg) : EncodedLength.Statement (.add rd rs1 rs2) := fun _ => rfl
theorem EncodedLength.sub (rd rs1 rs2 : Reg) : EncodedLength.Statement (.sub rd rs1 rs2) := fun _ => rfl
theorem EncodedLength.and (rd rs1 rs2 : Reg) : EncodedLength.Statement (.and rd rs1 rs2) := fun _ => rfl
theorem EncodedLength.or (rd rs1 rs2 : Reg) : EncodedLength.Statement (.or rd rs1 rs2) := fun _ => rfl
theorem EncodedLength.xor (rd rs1 rs2 : Reg) : EncodedLength.Statement (.xor rd rs1 rs2) := fun _ => rfl
theorem EncodedLength.not (rd rs1 : Reg) : EncodedLength.Statement (.not rd rs1) := fun _ => rfl
theorem EncodedLength.mv (rd rs1 : Reg) : EncodedLength.Statement (.mv rd rs1) := fun _ => rfl
theorem EncodedLength.addi (rd rs1 : Reg) (imm : Word) : EncodedLength.Statement (.addi rd rs1 imm) :=
  fun _ => rfl
theorem EncodedLength.li (rd : Reg) (imm : Word) : EncodedLength.Statement (.li rd imm) := fun _ => rfl
theorem EncodedLength.lw (rd rs1 : Reg) (imm : Word) : EncodedLength.Statement (.lw rd rs1 imm) :=
  fun _ => rfl
theorem EncodedLength.sw (rs1 rs2 : Reg) (imm : Word) : EncodedLength.Statement (.sw rs1 rs2 imm) :=
  fun _ => rfl
theorem EncodedLength.slt (rd rs1 rs2 : Reg) : EncodedLength.Statement (.slt rd rs1 rs2) := fun _ => rfl
theorem EncodedLength.slti (rd rs1 : Reg) (k : SltiOperand) :
    EncodedLength.Statement (.slti rd rs1 k) := fun _ => by cases k <;> rfl
theorem EncodedLength.sll (rd rs1 rs2 : Reg) : EncodedLength.Statement (.sll rd rs1 rs2) := fun _ => rfl
theorem EncodedLength.slli (rd rs1 : Reg) (n : BitVec 3) :
    EncodedLength.Statement (.slli rd rs1 n) := fun _ => rfl
theorem EncodedLength.srl (rd rs1 rs2 : Reg) : EncodedLength.Statement (.srl rd rs1 rs2) := fun _ => rfl
theorem EncodedLength.srli (rd rs1 : Reg) (n : BitVec 3) :
    EncodedLength.Statement (.srli rd rs1 n) := fun _ => rfl
theorem EncodedLength.sra (rd rs1 rs2 : Reg) : EncodedLength.Statement (.sra rd rs1 rs2) := fun _ => rfl
theorem EncodedLength.srai (rd rs1 : Reg) (n : BitVec 3) :
    EncodedLength.Statement (.srai rd rs1 n) := fun _ => rfl
theorem EncodedLength.bra (imm : Word) : EncodedLength.Statement (.bra imm) := fun _ => rfl
theorem EncodedLength.brz (imm : Word) : EncodedLength.Statement (.brz imm) := fun _ => rfl
theorem EncodedLength.brnz (imm : Word) : EncodedLength.Statement (.brnz imm) := fun _ => rfl
theorem EncodedLength.brn (imm : Word) : EncodedLength.Statement (.brn imm) := fun _ => rfl
theorem EncodedLength.brc (imm : Word) : EncodedLength.Statement (.brc imm) := fun _ => rfl
theorem EncodedLength.brv (imm : Word) : EncodedLength.Statement (.brv imm) := fun _ => rfl
theorem EncodedLength.stop : EncodedLength.Statement .stop := fun _ => rfl
theorem EncodedLength.unrecognized (op6 : BitVec 6) :
    EncodedLength.Statement (.unrecognized op6) := fun _ => rfl

end Sys2Proof.Laws
end

