-- ==== Sys2Proof/Tests/Slice0.lean ====
section
/-! SUPPORT. Tests on fixed values, each expected result from the spec's own words (the rule or vector is
named), and for every statement with hypotheses a witness that meets them. -/

namespace Sys2Proof.Tests

open Sys2Proof.Machine

-- ## Helpers

/-- Words as an image at an address, high byte first. -/
def place : Word → List Word → List (Word × Byte)
  | _, [] => []
  | a, w :: ws => (a, w.extractLsb' 8 8) :: (a + 1, w.extractLsb' 0 8) :: place (a + 2) ws

/-- Registers r1, r2, r3; the others 0. -/
def regs3 (a b c : Word) : Regs := ⟨a, b, c, 0, 0, 0, 0⟩

/-- The start of 95_test_vectors.md L2: flags Z0 C1 N0 V1, the given words at 0x0000. -/
def start (p : Params) (x : Regs) (ws : List Word) : State :=
  State.launch p x ⟨false, true, false, true⟩ (place 0 ws)

/-- The state after one step, or the same state if there is none. -/
def after (s : State) : State :=
  match step s with
  | .next t => t
  | _ => s

/-- A register, the flags and the pc of a state: what a row of L2 gives. -/
def row (r : Reg) (s : State) : Word × Flags × Word := (s.readReg r, s.flags, s.pc)

/-- The reference parameters. -/
abbrev ref : Params := Params.reference

/-- The start flags. -/
abbrev f0 : Flags := ⟨false, true, false, true⟩

-- ## Well-formedness: the three checks refuse an ill-formed term each

theorem test_wellFormed_addi_from_r0 : (Instr.addi .r1 .r0 5).wellFormed ref = false := by decide
theorem test_wellFormed_slti_form : (Instr.slti .r1 .r2 (.field3 5)).wellFormed ref = false := by decide
theorem test_wellFormed_unrecognized_25 : (Instr.unrecognized 25).wellFormed ref = false := by decide
theorem test_wellFormed_accepts :
    (Instr.addi .r1 .r1 5).wellFormed ref = true ∧ (Instr.li .r1 5).wellFormed ref = true ∧
    (Instr.slti .r1 .r2 (.field3 5)).wellFormed { ref with sltiForm := .field3 } = true ∧
    (Instr.unrecognized 26).wellFormed ref = true := by decide

-- ## Decoding: every constructor by a word written out bit by bit (30_encoding.md R73, R76, R80)

theorem test_decode_add :
    decode ref (wordsToBytes [0b0000010011001010]) = .ok (.add .r3 .r1 .r2, []) ∧ encode ref (.add .r3 .r1 .r2) = [0b0000010011001010] := by
  constructor <;> rfl
theorem test_decode_sub :
    decode ref (wordsToBytes [0b0000100100011010]) = .ok (.sub .r4 .r3 .r2, []) ∧ encode ref (.sub .r4 .r3 .r2) = [0b0000100100011010] := by
  constructor <;> rfl
theorem test_decode_and :
    decode ref (wordsToBytes [0b0000110001010011]) = .ok (.and .r1 .r2 .r3, []) ∧ encode ref (.and .r1 .r2 .r3) = [0b0000110001010011] := by
  constructor <;> rfl
theorem test_decode_or :
    decode ref (wordsToBytes [0b0001000001010011]) = .ok (.or .r1 .r2 .r3, []) ∧ encode ref (.or .r1 .r2 .r3) = [0b0001000001010011] := by
  constructor <;> rfl
theorem test_decode_xor :
    decode ref (wordsToBytes [0b0001010101101101]) = .ok (.xor .r5 .r5 .r5, []) ∧ encode ref (.xor .r5 .r5 .r5) = [0b0001010101101101] := by
  constructor <;> rfl
theorem test_decode_not :
    decode ref (wordsToBytes [0b0001100010001000]) = .ok (.not .r2 .r1, []) ∧ encode ref (.not .r2 .r1) = [0b0001100010001000] := by
  constructor <;> rfl
theorem test_decode_mv :
    decode ref (wordsToBytes [0b0001110001000000]) = .ok (.mv .r1 .r0, []) ∧ encode ref (.mv .r1 .r0) = [0b0001110001000000] := by
  constructor <;> rfl
theorem test_decode_addi :
    decode ref (wordsToBytes [0b0010000001001000, 0x0005]) = .ok (.addi .r1 .r1 0x0005, []) ∧ encode ref (.addi .r1 .r1 0x0005) = [0b0010000001001000, 0x0005] := by
  constructor <;> rfl
theorem test_decode_li :
    decode ref (wordsToBytes [0b0010000100000000, 0x1234]) = .ok (.li .r4 0x1234, []) ∧ encode ref (.li .r4 0x1234) = [0b0010000100000000, 0x1234] := by
  constructor <;> rfl
theorem test_decode_lw :
    decode ref (wordsToBytes [0b0010010010000000, 0x0010]) = .ok (.lw .r2 .r0 0x0010, []) ∧ encode ref (.lw .r2 .r0 0x0010) = [0b0010010010000000, 0x0010] := by
  constructor <;> rfl
theorem test_decode_sw :
    decode ref (wordsToBytes [0b0010100000000001, 0x0010]) = .ok (.sw .r0 .r1 0x0010, []) ∧ encode ref (.sw .r0 .r1 0x0010) = [0b0010100000000001, 0x0010] := by
  constructor <;> rfl
theorem test_decode_slt :
    decode ref (wordsToBytes [0b0010110011001010]) = .ok (.slt .r3 .r1 .r2, []) ∧ encode ref (.slt .r3 .r1 .r2) = [0b0010110011001010] := by
  constructor <;> rfl
theorem test_decode_slti :
    decode ref (wordsToBytes [0b0011000011001000, 0x8000]) = .ok (.slti .r3 .r1 (.imm16 0x8000), []) ∧ encode ref (.slti .r3 .r1 (.imm16 0x8000)) = [0b0011000011001000, 0x8000] := by
  constructor <;> rfl
theorem test_decode_sll :
    decode ref (wordsToBytes [0b0011010011001010]) = .ok (.sll .r3 .r1 .r2, []) ∧ encode ref (.sll .r3 .r1 .r2) = [0b0011010011001010] := by
  constructor <;> rfl
theorem test_decode_slli :
    decode ref (wordsToBytes [0b0011100001010100]) = .ok (.slli .r1 .r2 4, []) ∧ encode ref (.slli .r1 .r2 4) = [0b0011100001010100] := by
  constructor <;> rfl
theorem test_decode_srl :
    decode ref (wordsToBytes [0b0011110011001010]) = .ok (.srl .r3 .r1 .r2, []) ∧ encode ref (.srl .r3 .r1 .r2) = [0b0011110011001010] := by
  constructor <;> rfl
theorem test_decode_srli :
    decode ref (wordsToBytes [0b0100000001010100]) = .ok (.srli .r1 .r2 4, []) ∧ encode ref (.srli .r1 .r2 4) = [0b0100000001010100] := by
  constructor <;> rfl
theorem test_decode_sra :
    decode ref (wordsToBytes [0b0100010011001010]) = .ok (.sra .r3 .r1 .r2, []) ∧ encode ref (.sra .r3 .r1 .r2) = [0b0100010011001010] := by
  constructor <;> rfl
theorem test_decode_srai :
    decode ref (wordsToBytes [0b0100100001010100]) = .ok (.srai .r1 .r2 4, []) ∧ encode ref (.srai .r1 .r2 4) = [0b0100100001010100] := by
  constructor <;> rfl
theorem test_decode_bra :
    decode ref (wordsToBytes [0b0100110000000000, 0x0040]) = .ok (.bra 0x0040, []) ∧ encode ref (.bra 0x0040) = [0b0100110000000000, 0x0040] := by
  constructor <;> rfl
theorem test_decode_brz :
    decode ref (wordsToBytes [0b0101000000000000, 0x0020]) = .ok (.brz 0x0020, []) ∧ encode ref (.brz 0x0020) = [0b0101000000000000, 0x0020] := by
  constructor <;> rfl
theorem test_decode_brnz :
    decode ref (wordsToBytes [0b0101010000000000, 0x0004]) = .ok (.brnz 0x0004, []) ∧ encode ref (.brnz 0x0004) = [0b0101010000000000, 0x0004] := by
  constructor <;> rfl
theorem test_decode_brn :
    decode ref (wordsToBytes [0b0101100000000000, 0x0100]) = .ok (.brn 0x0100, []) ∧ encode ref (.brn 0x0100) = [0b0101100000000000, 0x0100] := by
  constructor <;> rfl
theorem test_decode_brc :
    decode ref (wordsToBytes [0b0101110000000000, 0x0030]) = .ok (.brc 0x0030, []) ∧ encode ref (.brc 0x0030) = [0b0101110000000000, 0x0030] := by
  constructor <;> rfl
theorem test_decode_brv :
    decode ref (wordsToBytes [0b0110000000000000, 0x0040]) = .ok (.brv 0x0040, []) ∧ encode ref (.brv 0x0040) = [0b0110000000000000, 0x0040] := by
  constructor <;> rfl
theorem test_decode_stop :
    decode ref (wordsToBytes [0b0110010000000000]) = .ok (.stop, []) ∧ encode ref (.stop) = [0b0110010000000000] := by
  constructor <;> rfl
theorem test_decode_unrecognized :
    decode ref (wordsToBytes [0b0110100000000000]) = .ok (.unrecognized 26, []) ∧ encode ref (.unrecognized 26) = [0b0110100000000000] := by
  constructor <;> rfl

-- 95_test_vectors.md L2.1: the ends of the range, bit 9 and bit 8
theorem test_decode_zero_word : decodeTableWord 16 0x0000 = some (.unrecognized 0) := by decide
theorem test_decode_all_ones : decodeTableWord 16 0xFFFF = some (.unrecognized 63) := by decide
theorem test_decode_bit9 : decodeTableWord 16 0x06CA = some (.add .r3 .r1 .r2) := by decide
theorem test_fields_bit8 : decodeFields 0x0100 = ⟨0, 4, 0, 0⟩ := by decide
-- L2.7: SLTI under field3
theorem test_decode_slti_field3 :
    decodeWords { ref with sltiForm := .field3 } 0x30CD 0 = .slti .r3 .r1 (.field3 5) := by decide
-- a list that ends inside an instruction is refused by name
theorem test_decode_truncated :
    decode ref [0x04] = .error .truncatedWord ∧
    decode ref [0x20, 0x48, 0x00] = .error .truncatedImmediate := by constructor <;> rfl

-- ## One step of each instruction (95_test_vectors.md L1, L2)

theorem test_step_add_overflow :  -- L1.5
    row .r3 (after (start ref (regs3 0x7FFF 1 0) [0x04CA])) = (0x8000, ⟨false, false, true, true⟩, 2) := by decide
theorem test_step_add_carry :  -- L1.5
    row .r3 (after (start ref (regs3 0xFFFF 1 0) [0x04CA])) = (0, ⟨true, true, false, false⟩, 2) := by decide
theorem test_step_sub_borrow :  -- L2.3
    row .r3 (after (start ref (regs3 3 5 0) [0x08CA])) = (0xFFFE, ⟨false, true, true, false⟩, 2) := by decide
theorem test_step_sub_carryOut :  -- L2.3
    row .r3 (after (start ({ ref with subCarry := .carryOut }) (regs3 5 5 0) [0x08CA])) = (0, ⟨true, true, false, false⟩, 2) := by decide
theorem test_step_and_preserve :  -- L2.4
    row .r3 (after (start ref (regs3 0xF0F0 0x0F0F 0) [0x0CCA])) = (0, ⟨true, true, false, true⟩, 2) := by decide
theorem test_step_and_clear :  -- L2.4
    row .r3 (after (start ({ ref with logicCv := .clear }) (regs3 0xF0F0 0x0FF0 0) [0x0CCA])) = (0x00F0, ⟨false, false, false, false⟩, 2) := by decide
theorem test_step_or :  -- L2.4
    row .r3 (after (start ref (regs3 0x8000 1 0) [0x10CA])) = (0x8001, ⟨false, true, true, true⟩, 2) := by decide
theorem test_step_xor :  -- L2.4
    row .r3 (after (start ref (regs3 0xAAAA 0x5555 0) [0x14CA])) = (0xFFFF, ⟨false, true, true, true⟩, 2) := by decide
theorem test_step_not :  -- L2.5
    row .r3 (after (start ref (regs3 0xFFFF 0 0) [0x18C8])) = (0, f0, 2) := by decide
theorem test_step_mv_havoc_preserves :  -- L2.5
    row .r3 (after (start ({ ref with flagsUnlisted := .havoc }) (regs3 0 0 7) [0x1CC8])) = (0, f0, 2) := by decide
theorem test_step_addi_wraps :  -- L2.5
    row .r3 (after (start ref (regs3 1 0 0) [0x20C8, 0xFFFF])) = (0, f0, 4) := by decide
theorem test_step_li :  -- L2.5
    row .r5 (after (start ref (regs3 0 0 0) [0x2140, 0x1234])) = (0x1234, f0, 4) := by decide
theorem test_step_li_r0 :  -- L1.2
    row .r0 (after (start ref (regs3 0 0 0) [0x2000, 0x1234])) = (0, f0, 4) := by decide
theorem test_step_lw_own_immediate :  -- L2.6
    row .r3 (after (start ref (regs3 0xFFFF 0 0) [0x24C8, 0x0003])) = (3, f0, 4) := by decide
theorem test_step_slt_signed :  -- L2.7
    row .r3 (after (start ref (regs3 0x8000 0x7FFF 0) [0x2CCA])) = (1, f0, 2) := by decide
theorem test_step_slti :  -- L2.7
    row .r3 (after (start ref (regs3 0xFFFF 0 9) [0x30C8, 0xFFFF])) = (0, f0, 4) := by decide
theorem test_step_slti_field3 :  -- L2.7
    row .r3 (after (start ({ ref with sltiForm := .field3 }) (regs3 0xFFFF 0 0) [0x30CD])) = (1, f0, 2) := by decide
theorem test_step_sll_17 :  -- L2.8
    row .r3 (after (start ref (regs3 0x8001 0x11 9) [0x34CA])) = (0, f0, 2) := by decide
theorem test_step_sll_low4 :  -- L2.8
    row .r3 (after (start ({ ref with shamtMask := .low4 }) (regs3 0x8001 0x11 0) [0x34CA])) = (2, f0, 2) := by decide
theorem test_step_slli_7 :  -- L2.9
    row .r3 (after (start ref (regs3 0xF00F 0 0) [0x38CF])) = (0x0780, f0, 2) := by decide
theorem test_step_srl_15 :  -- L2.8
    row .r3 (after (start ref (regs3 0x8001 15 0) [0x3CCA])) = (1, f0, 2) := by decide
theorem test_step_srli_7 :  -- L2.9
    row .r3 (after (start ref (regs3 0xF00F 0 0) [0x40CF])) = (0x01E0, f0, 2) := by decide
theorem test_step_sra_16 :  -- L2.8
    row .r3 (after (start ref (regs3 0x8001 16 0) [0x44CA])) = (0xFFFF, f0, 2) := by decide
theorem test_step_sra_low3 :  -- L2.8
    row .r3 (after (start ({ ref with shamtMask := .low3 }) (regs3 0x8001 9 0) [0x44CA])) = (0xC000, f0, 2) := by decide
theorem test_step_srai_7 :  -- L2.9
    row .r3 (after (start ref (regs3 0xF00F 0 0) [0x48CF])) = (0xFFE0, f0, 2) := by decide
theorem test_step_bra_odd :  -- L2.10
    row .r3 (after (start ref (regs3 0 0 0) [0x4C00, 0x0041])) = (0, f0, 0x0041) := by decide
theorem test_step_brz_not_taken :  -- L2.10
    row .r3 (after (start ref (regs3 0 0 0) [0x5000, 0x0040])) = (0, f0, 4) := by decide
theorem test_step_brnz_taken :  -- L2.10
    row .r3 (after (start ref (regs3 0 0 0) [0x5400, 0x0040])) = (0, f0, 0x0040) := by decide
theorem test_step_brn_not_taken :  -- L2.10
    row .r3 (after (start ref (regs3 0 0 0) [0x5800, 0x0040])) = (0, f0, 4) := by decide
theorem test_step_brc_taken :  -- L2.10
    row .r3 (after (start ref (regs3 0 0 0) [0x5C00, 0x0040])) = (0, f0, 0x0040) := by decide
theorem test_step_brv_taken :  -- L2.10
    row .r3 (after (start ref (regs3 0 0 0) [0x6000, 0x0040])) = (0, f0, 0x0040) := by decide
theorem test_step_unrecognized :  -- L2.11
    row .r7 (after (start ref (regs3 0 0 0) [0xFFFF])) = (0, f0, 2) := by decide
theorem test_step_and_havoc :  -- L2.4: Z and N fixed, C and V drawn
    let t := after (start { ref with logicCv := .havoc } (regs3 0xF0F0 0x0FF0 0) [0x0CCA])
    (t.readReg .r3, t.flags.z, t.flags.n, t.draws) = (0x00F0, false, false, 2) := by decide
theorem test_step_not_havoc :  -- L2.5: all four drawn
    let t := after (start { ref with flagsUnlisted := .havoc } (regs3 0xFFFF 0 5) [0x18C8])
    (t.readReg .r3, t.draws) = (0, 4) := by decide
theorem test_step_sw_odd :  -- L2.6: base 0x0200, address 0x0201
    let t := after (start ref (regs3 0x0200 0xBEEF 0) [0x280A, 0x0001])
    (t.readByte 0x0200, t.readByte 0x0201, t.pc, t.flags) = (0xBE, 0xEF, 4, f0) := by decide
theorem test_step_sw_own_immediate :  -- L2.6: seen by later fetches only
    let t := after (start ref (regs3 0xFFFE 0x2468 0) [0x280A, 0x0004])
    (t.readWord 0x0002, t.readWord 0x0000, t.pc) = (0x2468, 0x280A, 4) := by decide
theorem test_step_stop :  -- L2.11
    let t := after (start ref (regs3 0 0 0) [0x6400])
    (t.run, t.pc) = (.halted, 2) := by decide
theorem test_step_stop_hold :  -- L2.11
    let t := after (start { ref with stopPc := .hold } (regs3 0 0 0) [0x6600])
    (t.run, t.pc) = (.halted, 0) := by decide
theorem test_step_immediate_wraps :  -- L2.5: ADDI at 0xFFFE, its immediate at 0x0000
    let t := after { start ref (regs3 0x1234 0 0) [0x0007] with
      pc := 0xFFFE, mem := Memory.writeWord (start ref (regs3 0 0 0) [0x0007]).mem 0xFFFE 0x20C8 }
    (t.readReg .r3, t.pc) = (0x123B, 2) := by decide
theorem test_step_odd_pc :  -- L2.10: MV r1,r2 at pc 0x0011
    let t := after { start ref (regs3 1 2 3) [0, 0, 0, 0, 0, 0, 0, 0, 0x1C50] with pc := 0x0011 }
    (t.readReg .r1, t.pc) = (2, 0x0013) := by decide
theorem test_withFetchWord :  -- the first instruction after reset
    (after (State.reset.withFetchWord 16 0x2140)).pc = 4 ∧
    (after (State.reset.withFetchWord 32 0x12342140)).readReg .r5 = 0x1234 := by decide

-- ## Memory and the host (95_test_vectors.md L1.1, L2.2; 60_exceptions.md R231)

theorem test_mem_odd_write : Memory.writeWord [] 0x0011 0xBEEF = [(0x10, 0xBE), (0x11, 0xEF)] := by decide
theorem test_mem_top : Memory.writeWord [] 0xFFFF 0x1357 = [(0xFFFE, 0x13), (0xFFFF, 0x57)] := by decide
theorem test_mem_zero_not_listed :
    Memory.writeWord (Memory.writeWord [] 0x0100 0xCAFE) 0x0101 0x0012 = [(0x101, 0x12)] := by decide
theorem test_mem_wf_refuses :
    ¬Memory.wf [(2, 1), (1, 1)] ∧ ¬Memory.wf [(1, 0)] ∧ ¬Memory.wf [(65536, 1)] := by decide
theorem test_asm_sw :  -- R85: SW r1,r0,#0x10 is 0x2801 0x0010
    (assembleLine ref ⟨.op .sw, [.reg .r1, .reg .r0, .imm 0x10]⟩).map (encode ref)
      = some [0x2801, 0x0010] := by decide
theorem test_asm_text :
    (asmLine (.addi .r1 .r1 5)).map AsmLine.text = some "ADDI r1,r1,#5" ∧
    (asmLine .stop).map AsmLine.text = some "STOP" := by decide
theorem test_asm_shamt_8 : assembleLine ref ⟨.op .slli, [.reg .r1, .reg .r2, .imm 8]⟩ = none := by decide
theorem test_predicate_combinator :  -- R31: unconditional and never-taken
    ∀ z c n v : Bool, Flags.test ⟨z, c, n, v⟩ .allFlags = true ∧
      Flags.test ⟨z, c, n, v⟩ .noFlags = false := by decide
theorem test_decode_two_bytes :  -- R208: STOP is 2 bytes, with nothing after it
    decode ref [0x64, 0x00] = .ok (.stop, []) := rfl
theorem test_asm_sub :  -- R126: SUB r4,r3,r2 is 0x091A
    (assembleLine ref ⟨.op .sub, [.reg .r4, .reg .r3, .reg .r2]⟩).map (encode ref) = some [0x091A] := by
  decide
theorem test_inspect_8 : inspectRegister 8 State.reset = .error (.registerIndexOutOfRange 8) := rfl
theorem test_runLoop_stops :  -- R262: a stop request leaves the state as it is
    (match runLoop (fun _ => true) 5 State.reset with | .next t => t | _ => after State.reset)
      = State.reset := by decide

-- ## Witnesses: concrete values that meet the hypotheses of each statement

/-- A running state about to execute the given words. -/
abbrev at0 (ws : List Word) : State := start ref (regs3 0xFFFF 1 0) ws

/-- The havoc parameters, and the field3 form. -/
abbrev alt : Params :=
  { ref with
    sltiForm := .field3
    flagsUnlisted := .havoc
    logicCv := .havoc
    subCarry := .carryOut
    stopPc := .hold }

theorem witness_AddResult : ref.opc = Opc.reference ∧ 0x07FF#16 &&& 0xFC00#16 = 0x0400 := by decide
theorem witness_SubResult :
    ref.opc = Opc.reference ∧ 0x0BFF#16 &&& 0xFC00#16 = 0x0800 ∧
    (at0 []).params.subCarry = .borrow ∧ (start alt (regs3 0 0 0) []).params.subCarry = .carryOut := by
  decide
theorem witness_LogicResults :
    ref.opc = Opc.reference ∧ 0x0FFF#16 &&& 0xFC00#16 = 0x0C00 ∧ 0x13FF#16 &&& 0xFC00#16 = 0x1000 ∧
    0x17FF#16 &&& 0xFC00#16 = 0x1400 ∧ (at0 []).params.logicCv = .preserve ∧
    (start { ref with logicCv := .clear } (regs3 0 0 0) []).params.logicCv = .clear ∧
    (start alt (regs3 0 0 0) []).params.logicCv = .havoc := by decide
theorem witness_NotResult :
    ref.opc = Opc.reference ∧ 0x1BFF#16 &&& 0xFC00#16 = 0x1800 ∧
    (at0 []).params.flagsUnlisted = .preserve ∧
    (start alt (regs3 0 0 0) []).params.flagsUnlisted = .havoc := by decide
theorem witness_MvResult : ref.opc = Opc.reference ∧ 0x1FFF#16 &&& 0xFC00#16 = 0x1C00 := by decide
theorem witness_AddiResult :
    ref.opc = Opc.reference ∧ 0x23FF#16 &&& 0xFC00#16 = 0x2000 ∧ fieldReg 0x23FF 3 ≠ .r0 ∧
    0x23C7#16 &&& 0xFC00#16 = 0x2000 ∧ fieldReg 0x23C7 3 = .r0 := by decide
theorem witness_LiResult : ref.opc = Opc.reference ∧ 0x23C7#16 &&& 0xFC38#16 = 0x2000#16 := by decide
theorem witness_LwResult : ref.opc = Opc.reference ∧ 0x27FF#16 &&& 0xFC00#16 = 0x2400 := by decide
theorem witness_SwResult :
    ref.opc = Opc.reference ∧ 0x2BFF#16 &&& 0xFC00#16 = 0x2800 ∧
    (0xFFFD#16 ≠ (at0 []).effectiveAddress .r1 0 &&& 0xFFFE#16 ∧
      0xFFFD#16 ≠ ((at0 []).effectiveAddress .r1 0 &&& 0xFFFE#16) + 1) := by decide
theorem witness_SltResult : ref.opc = Opc.reference ∧ 0x2FFF#16 &&& 0xFC00#16 = 0x2C00 := by decide
theorem witness_SltiResult :
    ref.opc = Opc.reference ∧ alt.opc = Opc.reference ∧ 0x33FF#16 &&& 0xFC00#16 = 0x3000#16 ∧
    ref.sltiForm = .imm16 ∧ alt.sltiForm = .field3 := by decide
theorem witness_RegisterShiftResults :
    ref.opc = Opc.reference ∧ 0x37FF#16 &&& 0xFC00#16 = 0x3400 ∧ 0x3FFF#16 &&& 0xFC00#16 = 0x3C00 ∧
    0x47FF#16 &&& 0xFC00#16 = 0x4400 ∧ (at0 []).params.shamtMask = .full ∧
    (start { ref with shamtMask := .low4 } (regs3 0 0 0) []).params.shamtMask = .low4 ∧
    (start { ref with shamtMask := .low3 } (regs3 0 0 0) []).params.shamtMask = .low3 := by decide
/-- The three hypotheses on the mask together, at the full mask. -/
theorem witness_RegisterShiftMask :
    ((at0 []).params.shamtMask = .full → 0xFFFF#16 = 0xFFFF) ∧
    ((at0 []).params.shamtMask = .low4 → 0xFFFF#16 = 0x000F) ∧
    ((at0 []).params.shamtMask = .low3 → 0xFFFF#16 = 0x0007) := by decide
theorem witness_ImmediateShiftResults :
    ref.opc = Opc.reference ∧ 0x3BFF#16 &&& 0xFC00#16 = 0x3800 ∧ 0x43FF#16 &&& 0xFC00#16 = 0x4000 ∧
    0x4BFF#16 &&& 0xFC00#16 = 0x4800 := by decide
theorem witness_BraResult : ref.opc = Opc.reference ∧ 0x4FFF#16 &&& 0xFC00#16 = 0x4C00 := by decide
theorem witness_ConditionalBranchResults :
    ref.opc = Opc.reference ∧ 0x53FF#16 &&& 0xFC00#16 = 0x5000 ∧ 0x57FF#16 &&& 0xFC00#16 = 0x5400 ∧
    0x5BFF#16 &&& 0xFC00#16 = 0x5800 ∧ 0x5FFF#16 &&& 0xFC00#16 = 0x5C00 ∧
    0x63FF#16 &&& 0xFC00#16 = 0x6000 := by decide
theorem witness_StopResult :
    ref.opc = Opc.reference ∧ 0x67FF#16 &&& 0xFC00#16 = 0x6400 ∧ (at0 []).params.stopPc = .advance ∧
    (start alt (regs3 0 0 0) []).params.stopPc = .hold := by decide
theorem witness_UnrecognizedIsNoOp :
    (∀ op ∈ Op.all, ref.opc.code op ≠ (0x0000#16).extractLsb' 10 6) ∧
    (∀ op ∈ Op.all, ref.opc.code op ≠ (0x6800#16).extractLsb' 10 6) ∧
    ref.opc.code .stop = (0x67FF#16).extractLsb' 10 6 := by decide
theorem witness_ShiftFunctionsExact : 15 < 16 ∧ 16 ≥ 16 := by decide
theorem witness_FlagsWrittenWithR0 : ∃ op : Reg → Reg → Reg → Instr,
    op = Instr.add ∨ op = Instr.sub ∨ op = Instr.and ∨ op = Instr.or ∨ op = Instr.xor :=
  ⟨Instr.add, .inl rfl⟩
theorem witness_UnlistedFlagEffect :
    ∃ t, exec (.not .r3 .r1) (start alt (regs3 1 2 3) []) = .next t := ⟨_, rfl⟩
theorem witness_SubtractCompares : (at0 [0x080A]).params.subCarry = .borrow := rfl
theorem witness_IgnoredBits :
    (0x1C07#16 ≠ 0x1E00#16) ∧
    0x1C07#16 &&& usedBitsOf ref 0x1C07 = 0x1E00#16 &&& usedBitsOf ref 0x1C07 := by decide
theorem witness_DecodeTotal :
    ([] : List Byte).length < 2 ∧ [0x20#8].length < 2 ∧
    wordExtended ref (0x20#8 ++ 0x48#8) = true ∧ wordExtended ref (0x64#8 ++ 0x00#8) = false := by
  decide
theorem witness_DecodeEncodeRoundTrip :
    ref.wf ∧ alt.wf ∧ (Instr.addi .r7 .r1 0xFFFF).wellFormed ref = true ∧
    (Instr.slti .r7 .r1 (.field3 7)).wellFormed alt = true ∧
    (Instr.unrecognized 0).wellFormed ref = true ∧ (Instr.unrecognized 63).wellFormed ref = true := by
  decide
theorem witness_DecodedWellFormed : decode ref [0x20, 0x48, 0, 5, 9] = .ok (.addi .r1 .r1 5, [9]) := rfl
theorem witness_AssemblyRoundTrip :
    (Instr.slti .r7 .r1 (.field3 7)).wellFormed alt = true ∧
    asmLine (.slti .r7 .r1 (.field3 7)) = some ⟨.op .slti, [.reg .r7, .reg .r1, .imm 7]⟩ ∧
    (Instr.addi .r7 .r1 0xFFFF).wellFormed ref = true ∧
    asmLine (.addi .r7 .r1 0xFFFF) = some ⟨.op .addi, [.reg .r7, .reg .r1, .imm 65535]⟩ ∧
    assembleLine ref ⟨.op .addi, [.reg .r7, .reg .r0, .imm 5]⟩ = some (.li .r7 5) ∧
    ref.sltiForm = .imm16 ∧ alt.sltiForm = .field3 := by decide
theorem witness_StepRunsDecoded :
    let s := at0 [0x2048, 0x0005]
    s.run = .running ∧ decode s.params
      [s.readByte (align s.pc), s.readByte (align s.pc + 1),
       s.readByte (align (s.pc + 2)), s.readByte (align (s.pc + 2) + 1)]
        = .ok (.addi .r1 .r1 5, []) := ⟨rfl, rfl⟩
theorem witness_StepTotal : State.reset.run = .running := rfl
theorem witness_HaltedOnlyByStop :
    (at0 [0x6400]).run = .running ∧ (∃ t, step (at0 [0x6400]) = .next t) ∧
    (after (at0 [0x6400])).run = .halted := ⟨rfl, ⟨_, rfl⟩, rfl⟩
theorem witness_HaltedStepFaults : (after (at0 [0x6400])).run = .halted := rfl
theorem witness_StepKeepsInvariant :
    (at0 [0x280A, 0x0001]).inv ∧ ∃ t, step (at0 [0x280A, 0x0001]) = .next t := ⟨by decide, _, rfl⟩
theorem witness_ResetMeetsInvariant : ref.wf ∧ alt.wf := by decide
theorem witness_BranchPredicates : Flag.carry ≠ Flag.zero := by decide
theorem witness_LaunchState :
    ((place 0xFFFE [0xBEEF]).map Prod.fst).Nodup ∧ (0xFFFF, 0xEF) ∈ place 0xFFFE [0xBEEF] ∧
    0x0000 ∉ (place 0xFFFE [0xBEEF]).map Prod.fst := by decide
theorem witness_FlagWriters :
    (∃ t, exec (.and .r3 .r1 .r2) (at0 []) = .next t) ∧
    (∃ t, exec (.and .r3 .r1 .r2) { at0 [] with flags := ⟨true, false, true, false⟩ } = .next t) ∧
    writesFlag ref (.and .r3 .r1 .r2) .carry = false ∧
    writesFlag ref (.and .r3 .r1 .r2) .zero = true := ⟨⟨_, rfl⟩, ⟨_, rfl⟩, rfl, rfl⟩
theorem witness_OnlyStoresChangeMemory :
    (∃ t, step (at0 [0x280A, 0x0000]) = .next t) ∧
    (after (at0 [0x280A, 0x0000])).readByte 0xFFFF ≠ (at0 [0x280A, 0x0000]).readByte 0xFFFF :=
  ⟨⟨_, rfl⟩, by decide⟩
theorem witness_RegistersReadAndWritten :
    (∃ t, exec (.sub .r3 .r1 .r2) (at0 []) = .next t) ∧
    (∃ t, exec (.sub .r3 .r1 .r2) { at0 [] with regs := ⟨0xFFFF, 1, 9, 9, 9, 9, 9⟩ } = .next t) ∧
    writtenReg (.sub .r3 .r1 .r2) ≠ some .r1 ∧
    (∀ r ∈ readRegs (.sub .r3 .r1 .r2),
      (at0 []).readReg r = Regs.read ⟨0xFFFF, 1, 9, 9, 9, 9, 9⟩ r) := ⟨⟨_, rfl⟩, ⟨_, rfl⟩, by decide, by decide⟩
theorem witness_FlagsReadOnlyByBranches :
    (∃ t, exec (.brc 0x40) (at0 []) = .next t) ∧
    (∃ t, exec (.brc 0x40) { at0 [] with flags := ⟨true, true, true, false⟩ } = .next t) ∧
    readFlag (.brc 0x40) = some .carry ∧
    (at0 []).flags.get .carry = Flags.get ⟨true, true, true, false⟩ .carry :=
  ⟨⟨_, rfl⟩, ⟨_, rfl⟩, rfl, rfl⟩
theorem witness_NextPc : ∃ t, exec (.brz 0x40) (at0 []) = .next t := ⟨_, rfl⟩
theorem witness_OddPcRunsAligned :
    (∃ t, step { at0 [0x04CA] with pc := 1 } = .next t) ∧
    takenTarget f0 (State.fetch { at0 [0x04CA] with pc := 1 }) = none := ⟨⟨_, rfl⟩, by decide⟩
theorem witness_ReferenceStepUsesNoDraw :
    (at0 [0x0CCA]).params.flagsUnlisted = .preserve ∧ (at0 [0x0CCA]).params.logicCv ≠ .havoc ∧
    ∃ t, step (at0 [0x0CCA]) = .next t := ⟨rfl, by decide, _, rfl⟩
theorem witness_ParamsNeverChange : ∃ t, step (at0 [0x6400]) = .next t := ⟨_, rfl⟩
theorem witness_WordReadAfterWrite :
    align 0xFFFF = align 0xFFFE ∧ align 0x0000 ≠ align 0xFFFE := by decide
theorem witness_WordAccessBytes :
    0xFFFD ≠ (0xFFFF#16 &&& 0xFFFE#16).toNat ∧ 0xFFFD ≠ (0xFFFF#16 &&& 0xFFFE#16).toNat + 1 := by decide
theorem witness_RegisterZeroIsHardWired : Reg.r7 ≠ .r0 ∧ Reg.r1 ≠ Reg.r7 := by decide
theorem witness_RegisterInspection : 8 ≤ 8 := by decide

/-- SW r1,r0,#0x10; ADD r3,r1,r2; LW r2,r0,#0x11: a store, a step that spares its word, a load. -/
abbrev storeLoad : State := at0 [0x2801, 0x0010, 0x04CA, 0x2480, 0x0011]

theorem storeLoad_spares : SparesWord (storeLoad.effectiveAddress .r0 0x10) (after storeLoad) := by
  intro ea h
  have hn : storeAddress (after storeLoad) (after storeLoad).fetch = none := by decide
  rw [hn] at h
  cases h

theorem witness_StoreThenLoad :
    storeLoad.fetch = .sw .r0 .r1 0x10 ∧ step storeLoad = .next (after storeLoad) ∧
    RunsWhile (SparesWord (storeLoad.effectiveAddress .r0 0x10)) 1 (after storeLoad)
      (after (after storeLoad)) ∧
    (after (after storeLoad)).run = .running ∧
    (after (after storeLoad)).fetch = .lw .r2 .r0 0x11 ∧
    align ((after (after storeLoad)).effectiveAddress .r0 0x11)
      = align (storeLoad.effectiveAddress .r0 0x10) :=
  ⟨by decide, rfl, .step _ _ _ _ storeLoad_spares rfl (.refl _), by decide, by decide, by decide⟩

/-- SW r2,r0,#6 where the word at 0x0006 is the immediate of the LI at 0x0004. -/
abbrev patchImm : State := start ref (regs3 0x6400 0x1111 0) [0x2802, 0x0006, 0x2080, 0x0000]

/-- SW r1,r0,#4 over the next instruction word (as P6 of L3). -/
abbrev patchWord : State := start ref (regs3 0x6400 0x1111 0) [0x2801, 0x0004, 0x2080, 0x0000]

theorem witness_LaterFetchSeesStore :
    patchWord.fetch = .sw .r0 .r1 4 ∧ step patchWord = .next (after patchWord) ∧
    RunsWhile (SparesWord (patchWord.effectiveAddress .r0 4)) 0 (after patchWord) (after patchWord) ∧
    align (after patchWord).pc = align (patchWord.effectiveAddress .r0 4) ∧
    patchImm.fetch = .sw .r0 .r2 6 ∧ step patchImm = .next (after patchImm) ∧
    wordExtended (after patchImm).params (after patchImm).fetchWord = true ∧
    align ((after patchImm).pc + 2) = align (patchImm.effectiveAddress .r0 6) :=
  ⟨by decide, rfl, .refl _, by decide, by decide, rfl, by decide, by decide⟩

end Sys2Proof.Tests
end

/-! PROOFS. The state family (spec/10_state.md): registers, launch, run state, and which flag an
instruction reads. -/

namespace Sys2Proof.Machine

-- ## The register file (R22)

/-- Settles O52: the law of the register file, read at r0, at the written register and elsewhere. -/
theorem registerZeroIsHardWired : Obligations.RegisterZeroIsHardWired := by
  intro x r q v
  refine ⟨rfl, rfl, fun hr => ?_, fun hq => ?_⟩
  · simp [Regs.read_write, hr]
  · simp [Regs.read_write, hq]

-- ## The run state (R34)

theorem exec_stop_run {s t : State} (h : exec .stop s = .next t) : t.run = .halted := by
  cases h
  rfl

theorem exec_keeps_run {i : Instr} {s t : State} (hi : i ≠ .stop) (h : exec i s = .next t) :
    t.run = s.run := by
  rcases exec_shape i s with ⟨rd, v, cc, len, e⟩ | ⟨rs1, rs2, imm, -, e⟩ | ⟨taken, imm, e⟩ |
    ⟨rfl, -⟩ | ⟨op6, -, e⟩
  case inr.inr.inr.inl => exact absurd rfl hi
  all_goals
    rw [e] at h
    cases h
    rfl

theorem exec_halts_iff {i : Instr} {s t : State} (hs : s.run = .running) (h : exec i s = .next t) :
    t.run = .halted ↔ i = .stop := by
  constructor
  · intro ht
    by_contra hi
    rw [exec_keeps_run hi h, hs] at ht
    cases ht
  · rintro rfl
    exact exec_stop_run h

theorem step_of_running {s : State} (hs : s.run = .running) : step s = exec s.fetch s := by
  simp [step, hs]

/-- Settles O35: a step is the execution of the fetched instruction from a running state, and of the
instructions only STOP changes the run state. -/
theorem haltedOnlyByStop : Obligations.HaltedOnlyByStop := by
  refine ⟨fun _ _ _ _ => rfl, fun _ => step_of_running, fun s t h => ?_, fun s t hs h => ?_⟩
  · obtain ⟨hs, he⟩ := step_inversion h
    exact exec_halts_iff hs he
  · obtain ⟨hr, -⟩ := step_inversion h
    rw [hs] at hr
    cases hr

-- ## The loader and the launch (R47, R250, R253)

/-- The state with one byte deposited, as the loader deposits each cell of an image. -/
def State.deposit (s : State) (c : Word × Byte) : State :=
  { s with mem := Memory.writeByte s.mem c.1.toNat c.2 }

@[simp] theorem State.load_nil (s : State) : s.load [] = s := rfl

@[simp] theorem State.load_cons (s : State) (c : Word × Byte) (image : List (Word × Byte)) :
    s.load (c :: image) = (s.deposit c).load image := rfl

theorem State.readByte_deposit (s : State) (c : Word × Byte) (a : Word) :
    (s.deposit c).readByte a = if a = c.1 then c.2 else s.readByte a := by
  simp [State.readByte, State.deposit, Memory.readByte_writeByte, BitVec.toNat_inj]

theorem State.readByte_load_of_notMem {image : List (Word × Byte)} {a : Word}
    (ha : a ∉ image.map Prod.fst) (s : State) : (s.load image).readByte a = s.readByte a := by
  induction image generalizing s with
  | nil => rfl
  | cons c rest ih =>
    simp only [List.map_cons, List.mem_cons, not_or] at ha
    obtain ⟨hc, hrest⟩ := ha
    rw [State.load_cons, ih hrest, State.readByte_deposit, if_neg hc]

/-- With no address twice in the image, no later cell overwrites the one at `a`. -/
theorem State.readByte_load_of_mem {image : List (Word × Byte)} {a : Word} {v : Byte}
    (hnodup : (image.map Prod.fst).Nodup) (hmem : (a, v) ∈ image) (s : State) :
    (s.load image).readByte a = v := by
  induction image generalizing s with
  | nil => cases hmem
  | cons c rest ih =>
    rw [List.map_cons, List.nodup_cons] at hnodup
    obtain ⟨hc, hrest⟩ := hnodup
    rw [State.load_cons]
    rcases List.mem_cons.1 hmem with rfl | hmem
    · rw [State.readByte_load_of_notMem hc, State.readByte_deposit, if_pos rfl]
    · exact ih hrest hmem _

/-- Settles O39: the loader changes memory only, and over the zero fill of reset a byte is the image's
or 0. -/
theorem launchState : Obligations.LaunchState := by
  intro p x f image hnodup
  exact ⟨rfl, rfl, rfl, rfl, rfl, rfl, fun _ _ h => State.readByte_load_of_mem hnodup h _,
    fun _ h => State.readByte_load_of_notMem h _⟩

-- ## Which flag an instruction reads (R30)

/-- Both complete, in the same state but for the flags. -/
def SameButFlags (a b : Result) : Prop := ∃ t f, a = .next t ∧ b = .next { t with flags := f }

variable {s : State} {g : Flags}

theorem State.logicFlags_draws_withFlags (r : Word) :
    ({ s with flags := g }.logicFlags r).draws = (s.logicFlags r).draws := by
  unfold State.logicFlags
  cases s.params.logicCv <;> rfl

theorem State.unlistedFlags_draws_withFlags :
    { s with flags := g }.unlistedFlags.draws = s.unlistedFlags.draws := by
  unfold State.unlistedFlags
  cases s.params.flagsUnlisted <;> rfl

/-- A flag write reaches the rest of the state by its draw count alone. -/
theorem State.writeBack_withFlags (rd : Reg) (v len : Word) {cc cc' : FlagWrite}
    (hdraws : cc'.draws = cc.draws) :
    SameButFlags (s.writeBack rd v cc len) ({ s with flags := g }.writeBack rd v cc' len) := by
  refine ⟨_, cc'.flags, rfl, ?_⟩
  simp [State.writeBack, State.commit, State.jump, hdraws]

/-- A branch uses the flags by its predicate alone. -/
theorem State.branch_withFlags (imm : Word) {pred : BranchPredicate}
    (h : s.flags.test pred = g.test pred) :
    SameButFlags (s.branch (s.flags.test pred) imm)
      ({ s with flags := g }.branch (g.test pred) imm) := by
  refine ⟨_, g, rfl, ?_⟩
  simp [State.branch, State.commit, State.jump, State.keepFlags, h]

theorem exec_withFlags (i : Instr) (hread : ∀ f, readFlag i = some f → s.flags.get f = g.get f) :
    SameButFlags (exec i s) (exec i { s with flags := g }) := by
  cases i
  case bra => exact State.branch_withFlags _ rfl
  case brz | brnz | brn | brc | brv => exact State.branch_withFlags _ (by simp [hread _ rfl])
  case sw | stop | unrecognized => exact ⟨_, g, rfl, rfl⟩
  case add | sub | mv | lw => exact State.writeBack_withFlags _ _ _ rfl
  case and | or | xor =>
    exact State.writeBack_withFlags _ _ _ (State.logicFlags_draws_withFlags _)
  all_goals exact State.writeBack_withFlags _ _ _ State.unlistedFlags_draws_withFlags

/-- Settles O44: with the read flag the same, other flags reach only the flags. -/
theorem flagsReadOnlyByBranches : Obligations.FlagsReadOnlyByBranches := by
  intro i s t t' g hread ht ht'
  obtain ⟨u, f, hu, hu'⟩ := exec_withFlags i hread
  rw [hu] at ht
  rw [hu'] at ht'
  cases ht
  cases ht'
  exact ⟨rfl, rfl, rfl, rfl, rfl⟩

end Sys2Proof.Machine

/-! PROOFS. The memory family (spec/20_memory.md): which bytes a word access reads and writes, and a
word read after a word write. -/

namespace Sys2Proof.Machine

-- ## Alignment (R51)

/-- Bit 0 of an address is lost to the alignment. -/
theorem align_or_one (a : Word) : align (a ||| 1) = align a := by
  have hbit : (1 : Word) &&& 0xFFFE#16 = 0#16 := by decide
  rw [align, align, BitVec.and_or_distrib_right, hbit, BitVec.or_zero]

@[simp] theorem align_align (a : Word) : align (align a) = align a := by
  rw [align, align, BitVec.and_assoc, BitVec.and_self]

/-- No carry leaves an aligned word: its second byte never wraps to address 0. -/
theorem align_succ_toNat_eq (a : Word) : (align a + 1).toNat = (align a).toNat + 1 := by
  rw [align_succ_toNat, align_toNat]

/-- Two aligned words are the same or have no byte in common. -/
theorem align_toNat_disjoint {a b : Word} (h : align b ≠ align a) :
    (align b).toNat ≠ (align a).toNat ∧ (align b).toNat ≠ (align a).toNat + 1 ∧
      (align b).toNat + 1 ≠ (align a).toNat := by
  have hne : (align b).toNat ≠ (align a).toNat := mt BitVec.toNat_inj.1 h
  rw [align_toNat, align_toNat] at hne ⊢
  omega

-- ## Word accesses (R50, R52)

/-- R50: the two bytes of a word read, high byte first. -/
theorem Memory.readWord_eq (m : List Host.Cell) (a : Word) :
    Memory.readWord m a
      = Memory.readByte m (align a).toNat ++ Memory.readByte m ((align a).toNat + 1) := by
  rw [Memory.readWord, align_succ_toNat_eq]

theorem Memory.readWord_congr {a b : Word} (h : align a = align b) (m : List Host.Cell) :
    Memory.readWord m a = Memory.readWord m b := by
  rw [Memory.readWord, h, Memory.readWord]

theorem Memory.writeWord_congr {a b : Word} (h : align a = align b) (m : List Host.Cell)
    (v : Word) : Memory.writeWord m a v = Memory.writeWord m b v := by
  rw [Memory.writeWord, h, Memory.writeWord]

/-- R52: what a byte read sees after a word write. -/
theorem Memory.readByte_writeWord (m : List Host.Cell) (a v : Word) (q : Nat) :
    Memory.readByte (Memory.writeWord m a v) q
      = if q = (align a).toNat + 1 then v.extractLsb' 0 8
        else if q = (align a).toNat then v.extractLsb' 8 8 else Memory.readByte m q := by
  rw [Memory.writeWord, Memory.readByte_writeByte, Memory.readByte_writeByte, align_succ_toNat_eq]

theorem Memory.readByte_writeWord_high (m : List Host.Cell) (a v : Word) :
    Memory.readByte (Memory.writeWord m a v) (align a).toNat = v.extractLsb' 8 8 := by
  simp [Memory.readByte_writeWord]

theorem Memory.readByte_writeWord_low (m : List Host.Cell) (a v : Word) :
    Memory.readByte (Memory.writeWord m a v) ((align a).toNat + 1) = v.extractLsb' 0 8 := by
  simp [Memory.readByte_writeWord]

theorem Memory.readByte_writeWord_of_ne (m : List Host.Cell) (a v : Word) {q : Nat}
    (hhigh : q ≠ (align a).toNat) (hlow : q ≠ (align a).toNat + 1) :
    Memory.readByte (Memory.writeWord m a v) q = Memory.readByte m q := by
  simp [Memory.readByte_writeWord, hhigh, hlow]

theorem Memory.readWord_writeWord_of_align_eq (m : List Host.Cell) {a b : Word} (v : Word)
    (h : align b = align a) : Memory.readWord (Memory.writeWord m a v) b = v := by
  rw [Memory.readWord_congr h, Memory.readWord_eq, Memory.readByte_writeWord_high,
    Memory.readByte_writeWord_low, Word.bytes_append]

theorem Memory.readWord_writeWord_of_align_ne (m : List Host.Cell) {a b : Word} (v : Word)
    (h : align b ≠ align a) :
    Memory.readWord (Memory.writeWord m a v) b = Memory.readWord m b := by
  obtain ⟨heven, hcross, hcross'⟩ := align_toNat_disjoint h
  rw [Memory.readWord_eq, Memory.readWord_eq, Memory.readByte_writeWord_of_ne m a v heven hcross,
    Memory.readByte_writeWord_of_ne m a v hcross' (by omega)]

/-- Settles O50: an aligned word is read and written whole, and an access sees its address only
through the alignment. -/
theorem wordReadAfterWrite : Obligations.WordReadAfterWrite := by
  intro m a b v
  exact ⟨Memory.readWord_writeWord_of_align_eq m v, Memory.readWord_writeWord_of_align_ne m v,
    Memory.writeWord_congr (align_or_one a).symm m v⟩

/-- Settles O51: the address named there is the model's aligned one. -/
theorem wordAccessBytes : Obligations.WordAccessBytes := by
  intro m a v
  have halign : align (a ||| 1) = align (align a) := by rw [align_or_one, align_align]
  exact ⟨Memory.readWord_eq m a, Memory.readByte_writeWord_high m a v,
    Memory.readByte_writeWord_low m a v, fun _ => Memory.readByte_writeWord_of_ne m a v,
    Memory.readWord_congr halign m⟩

end Sys2Proof.Machine

/-! PROOFS. The encoding family (spec/30_encoding.md): how long a decoded instruction is. -/

namespace Sys2Proof

-- ## Length (R77)

/-- R77: the mnemonics followed by an immediate word, listed. -/
theorem Op.extended_iff (form : SltiForm) (op : Op) :
    op.extended form = true ↔
      op ∈ [Op.addi, .lw, .sw, .bra, .brz, .brnz, .brn, .brc, .brv] ∨
        (op = .slti ∧ form = .imm16) := by
  cases op <;> simp [Op.extended]

/-- The mnemonic fixes the length, whatever the fields: LI is as long as ADDI, and SLTI is long in
the form with an immediate word. -/
theorem buildInstr_length (form : SltiForm) (op : Op) (f : Fields) (imm : Word) :
    (buildInstr form op f imm).length = if op.extended form then 4 else 2 := by
  cases op
  case addi =>
    rw [buildInstr, apply_ite Instr.length]
    exact ite_self _
  case slti => cases form <;> rfl
  all_goals rfl

/-- A decoded instruction is long exactly when its word announces an immediate word. -/
theorem decodeWords_length (p : Params) (w imm : Word) :
    (decodeWords p w imm).length = if wordExtended p w then 4 else 2 := by
  unfold decodeWords wordExtended
  cases p.opc.lookup (decodeFields w).op6 with
  | none => rfl
  | some op => exact buildInstr_length p.sltiForm op (decodeFields w) imm

/-- Settles O28: the extended words are those of the listed mnemonics. -/
theorem decodedLength : Obligations.DecodedLength := by
  intro p w imm
  rw [decodeWords_length, wordExtended, decodeFields_op6]
  cases p.opc.lookup (w.extractLsb' 10 6) with
  | none => rfl
  | some op => simp only [Op.extended_iff]

end Sys2Proof

/-! PROOFS. The execution cycle family (spec/40_execution_cycle.md): every instruction and every step
completes. -/

namespace Sys2Proof.Machine

-- ## Totality (R109)

/-- R109: every instruction ends in a commit, which neither faults nor refuses. -/
theorem exec_total (i : Instr) (s : State) : ∃ t, exec i s = .next t := by
  obtain ⟨e, he⟩ := exec_commits i s
  exact ⟨s.commit e, he⟩

/-- Settles O34: a running state's step is the execution of the fetched instruction, and execution is
total. -/
theorem stepTotal : Obligations.StepTotal := by
  refine ⟨fun s hs => ?_, exec_total⟩
  rw [step_of_running hs]
  exact exec_total s.fetch s

end Sys2Proof.Machine

/-! PROOFS. The ALU family (spec/41_alu.md): which words the ALU instructions are, what they write,
and their flags. -/

namespace Sys2Proof.Machine

-- ## The encoding of an instruction under the reference assignment (R71, R80)

theorem reference_injective : Opc.reference.injective := by decide

/-- The mask 0xFC00 keeps the major opcode. -/
theorem op6_of_masked {w m : Word} (hw : w &&& 0xFC00#16 = m) :
    w.extractLsb' 10 6 = m.extractLsb' 10 6 := by
  subst hw
  ext i hi
  interval_cases i <;> simp

/-- A word whose major opcode is the reference one of `op` is built as `op`. -/
theorem decodeWords_of_masked {p : Params} {w m : Word} (op : Op) (hp : p.opc = Opc.reference)
    (hw : w &&& 0xFC00#16 = m) (hm : m.extractLsb' 10 6 = Opc.reference.code op) (imm : Word) :
    decodeWords p w imm = buildInstr p.sltiForm op (decodeFields w) imm := by
  have hop : p.opc.lookup (decodeFields w).op6 = some op := by
    rw [decodeFields_op6, op6_of_masked hw, hm, hp, Opc.lookup_code reference_injective]
  rw [decodeWords, hop]

/-- The three operand fields of a word, each a run of its bits (R73). -/
theorem decodeFields_eq (w : Word) :
    decodeFields w =
      ⟨(decodeFields w).opcode, w.extractLsb' 6 3, w.extractLsb' 3 3, w.extractLsb' 0 3⟩ := by
  rw [← decodeFields_rd, ← decodeFields_rs1, ← decodeFields_rs2]

/-- What settles an encoding statement: the major opcode of its match word is the reference one of
`op`, and `op` is built into the stated instruction from the runs of bits of the word. -/
theorem encodedAs_of_buildInstr {m : Word} {f : Word → Word → Instr} (op : Op)
    (hm : m.extractLsb' 10 6 = Opc.reference.code op)
    (hf : ∀ (form : SltiForm) (opcode : BitVec 7) (w imm : Word),
      buildInstr form op ⟨opcode, w.extractLsb' 6 3, w.extractLsb' 3 3, w.extractLsb' 0 3⟩ imm
        = f w imm) :
    EncodedAs m f := by
  intro p w imm hp hw
  rw [decodeWords_of_masked op hp hw hm, decodeFields_eq, hf]

-- ## The end of an instruction that writes a register

/-- An instruction that ends in `writeBack`, in the terms of the statements. -/
theorem exec_writeBack_spec {i : Instr} {s : State} {rd : Reg} {v len : Word} {cc : FlagWrite}
    (h : exec i s = s.writeBack rd v cc len) :
    ∃ t, exec i s = .next t ∧ SetsReg s t rd v ∧ t.flags = cc.flags ∧ t.draws = cc.draws ∧
      Advances s t len := by
  obtain ⟨t, ht, hreg, hflags, hdraws, hpc, hmem, hrun, hparams⟩ := s.writeBack_spec rd v cc len
  have hset : SetsReg s t rd v := by
    refine ⟨rfl, fun hrd => ?_, fun q hq => ?_⟩
    · simp [hreg, hrd]
    · simp [hreg, hq]
  have hkeep : KeepsMem s t := fun a => by rw [State.readByte, State.readByte, hmem]
  exact ⟨t, h.trans ht, hset, hflags, hdraws, hpc, hkeep, hrun, hparams⟩

-- ## The unlisted flag effect (R123)

theorem State.unlistedFlags_of_preserve {s : State} (h : s.params.flagsUnlisted = .preserve) :
    s.unlistedFlags = s.keepFlags := by
  rw [State.unlistedFlags, h]

theorem State.unlistedFlags_of_havoc {s : State} (h : s.params.flagsUnlisted = .havoc) :
    s.unlistedFlags =
      ⟨⟨Config.freeFlag s.draws, Config.freeFlag (s.draws + 1), Config.freeFlag (s.draws + 2),
        Config.freeFlag (s.draws + 3)⟩, s.draws + 4⟩ := by
  rw [State.unlistedFlags, h]

theorem unlistedFlags_of_eq {s t : State} (hflags : t.flags = s.unlistedFlags.flags)
    (hdraws : t.draws = s.unlistedFlags.draws) : UnlistedFlags s t := by
  refine ⟨fun h => ?_, fun h => ?_⟩
  · rw [State.unlistedFlags_of_preserve h] at hflags hdraws
    exact ⟨hflags, hdraws⟩
  · rw [State.unlistedFlags_of_havoc h] at hflags hdraws
    exact ⟨hflags, hdraws⟩

theorem writesUnlisted_of_writeBack {i : Instr} {s : State} {rd : Reg} {v len : Word}
    (h : exec i s = s.writeBack rd v s.unlistedFlags len) : WritesUnlisted i s rd v len := by
  obtain ⟨t, ht, hset, hflags, hdraws, hadv⟩ := exec_writeBack_spec h
  exact ⟨t, ht, hset, unlistedFlags_of_eq hflags hdraws, hadv⟩

theorem unlistedFlags_of_writesUnlisted {i : Instr} {s t : State} {rd : Reg} {v len : Word}
    (hw : WritesUnlisted i s rd v len) (h : exec i s = .next t) : UnlistedFlags s t := by
  obtain ⟨u, hu, -, hflags, -⟩ := hw
  cases hu.symm.trans h
  exact hflags

/-- Settles O22: each of the listed instructions ends in `writeBack` with the unlisted flags. -/
theorem unlistedFlagEffect : Obligations.UnlistedFlagEffect := by
  intro i s t h
  cases i
  case not | addi | li | slt | slti | sll | slli | srl | srli | sra | srai =>
    exact unlistedFlags_of_writesUnlisted (writesUnlisted_of_writeBack rfl) h
  all_goals trivial

-- ## ADD and SUB (R120, R121, R125, R126)

theorem zeroFlag_eq (r : Word) : zeroFlag r = decide (r = 0) := rfl

/-- Settles O1: ADD writes back the sum and `addFlags`, whose fields are the formulas of R120. -/
theorem addResult : Obligations.AddResult := by
  refine ⟨encodedAs_of_buildInstr .add (by decide) fun _ _ _ _ => rfl, fun rd rs1 rs2 s => ?_⟩
  obtain ⟨t, ht, hset, hflags, hdraws, hadv⟩ :=
    exec_writeBack_spec (i := .add rd rs1 rs2) (s := s) rfl
  refine ⟨t, ht, hset, ?_, ?_, ?_, ?_, hdraws, hadv⟩
  all_goals
    rw [hflags]
    rfl

/-- Settles O2: SUB writes back the difference and `subFlags`, whose fields are the formulas of R121. -/
theorem subResult : Obligations.SubResult := by
  refine ⟨encodedAs_of_buildInstr .sub (by decide) fun _ _ _ _ => rfl, fun rd rs1 rs2 s => ?_⟩
  obtain ⟨t, ht, hset, hflags, hdraws, hadv⟩ :=
    exec_writeBack_spec (i := .sub rd rs1 rs2) (s := s) rfl
  have hc : t.flags.c = subCarry s.params.subCarry (s.readReg rs1) (s.readReg rs2) := by
    rw [hflags]
    rfl
  have hborrow (hp : s.params.subCarry = .borrow) :
      t.flags.c = decide ((s.readReg rs1).toNat < (s.readReg rs2).toNat) := by
    rw [hc, hp, subCarry]
  have hcarryOut (hp : s.params.subCarry = .carryOut) :
      t.flags.c = decide ((s.readReg rs2).toNat ≤ (s.readReg rs1).toNat) := by
    rw [hc, hp, subCarry]
  refine ⟨t, ht, hset, ?_, hborrow, hcarryOut, ?_, ?_, hdraws, hadv⟩
  all_goals
    rw [hflags]
    rfl

-- ## AND, OR and XOR (R122, R127 to R129)

theorem logicFlags_of_eq {s t : State} {r : Word} (hflags : t.flags = (s.logicFlags r).flags)
    (hdraws : t.draws = (s.logicFlags r).draws) : LogicFlags s t r := by
  cases hp : s.params.logicCv
  all_goals
    rw [State.logicFlags, hp] at hflags hdraws
    simp [LogicFlags, hp, hflags, hdraws, Flags.put, zeroFlag_eq, negativeFlag]

/-- What AND, OR and XOR share: they differ in the result only. -/
theorem exec_logic_spec {i : Instr} {s : State} {rd : Reg} {r : Word}
    (h : exec i s = s.writeBack rd r (s.logicFlags r) 2) :
    ∃ t, exec i s = .next t ∧ SetsReg s t rd r ∧ LogicFlags s t r ∧ Advances s t 2 := by
  obtain ⟨t, ht, hset, hflags, hdraws, hadv⟩ := exec_writeBack_spec h
  exact ⟨t, ht, hset, logicFlags_of_eq hflags hdraws, hadv⟩

/-- Settles O3: each writes back its result with the logic flags of that result. -/
theorem logicResults : Obligations.LogicResults :=
  ⟨encodedAs_of_buildInstr .and (by decide) fun _ _ _ _ => rfl,
    encodedAs_of_buildInstr .or (by decide) fun _ _ _ _ => rfl,
    encodedAs_of_buildInstr .xor (by decide) fun _ _ _ _ => rfl,
    fun _ _ _ _ => ⟨exec_logic_spec rfl, exec_logic_spec rfl, exec_logic_spec rfl⟩⟩

-- ## NOT, MV and ADDI (R130 to R132)

/-- Settles O4: NOT writes back the complement with the unlisted flags. -/
theorem notResult : Obligations.NotResult :=
  ⟨encodedAs_of_buildInstr .not (by decide) fun _ _ _ _ => rfl,
    fun _ _ _ => writesUnlisted_of_writeBack rfl⟩

/-- Settles O5: MV writes back its source with the flags kept, and reads no parameter. -/
theorem mvResult : Obligations.MvResult := by
  refine ⟨encodedAs_of_buildInstr .mv (by decide) fun _ _ _ _ => rfl, fun rd rs1 s => ?_⟩
  obtain ⟨t, ht, hset, hflags, hdraws, hadv⟩ :=
    exec_writeBack_spec (i := .mv rd rs1) (s := s) rfl
  exact ⟨t, ht, hset, ⟨hflags, hdraws⟩, hadv⟩

/-- Settles O6: ADDI writes back the sum with the unlisted flags; the decoder spells rs1 = r0 as LI. -/
theorem addiResult : Obligations.AddiResult :=
  ⟨encodedAs_of_buildInstr .addi (by decide) fun _ _ _ _ => rfl,
    fun _ _ _ _ => writesUnlisted_of_writeBack rfl⟩

end Sys2Proof.Machine

/-! PROOFS. The load/store family (spec/42_load_store.md): which words LW and SW are, what LW loads,
and what SW stores. -/

namespace Sys2Proof.Machine

-- ## Word accesses of a state (R50, R52)

theorem State.readWord_eq (s : State) (a : Word) :
    s.readWord a = s.readByte (align a) ++ s.readByte (align a + 1) := rfl

/-- What a byte read sees in a state whose memory is another's after a word write. -/
theorem State.readByte_of_writeWord {s t : State} {a v : Word}
    (h : t.mem = Memory.writeWord s.mem a v) (q : Word) :
    t.readByte q = if q = align a + 1 then v.extractLsb' 0 8
      else if q = align a then v.extractLsb' 8 8 else s.readByte q := by
  simp only [State.readByte, h, Memory.readByte_writeWord, ← align_succ_toNat_eq, BitVec.toNat_inj]

-- ## LW and SW (R151, R152)

/-- Settles O8: LW writes back the word at the aligned effective address with the flags kept. -/
theorem lwResult : Obligations.LwResult := by
  refine ⟨encodedAs_of_buildInstr .lw (by decide) fun _ _ _ _ => rfl, fun rd rs1 imm s => ?_⟩
  obtain ⟨t, ht, hset, hflags, hdraws, hadv⟩ :=
    exec_writeBack_spec (i := .lw rd rs1 imm) (s := s) rfl
  rw [State.readWord_eq] at hset
  exact ⟨t, ht, hset, ⟨hflags, hdraws⟩, hadv⟩

/-- Settles O9: SW ends in `storeWord`, so memory is the old one after a word write and nothing else
but the pc changes. -/
theorem swResult : Obligations.SwResult := by
  refine ⟨encodedAs_of_buildInstr .sw (by decide) fun _ _ _ _ => rfl, fun rs1 rs2 imm s => ?_⟩
  obtain ⟨t, ht, hreg, hflags, hdraws, hpc, hmem, hrun, hparams⟩ :=
    s.storeWord_spec (s.effectiveAddress rs1 imm) (s.readReg rs2)
  have hbyte := State.readByte_of_writeWord hmem
  refine ⟨rfl, t, ht, ?_, ?_, fun q hhigh hlow => ?_, hreg, ⟨hflags, hdraws⟩, ⟨hrun, hparams⟩, hpc⟩
  · simp [hbyte, align]
  · exact (hbyte _).trans (if_pos rfl)
  · exact (hbyte q).trans ((if_neg hlow).trans (if_neg hhigh))

end Sys2Proof.Machine

/-! PROOFS. The compare and shift family (spec/43_compare_shift.md): the shift functions as the shifts
of a bit vector, and which words the eight instructions are and what they write. -/

namespace Sys2Proof.Machine

-- ## The shift functions are the shifts of the word (R170)

theorem shl_eq_shiftLeft (v : Word) (n : Nat) : shl v n = v <<< n := by
  unfold shl
  split_ifs with hn
  · exact (BitVec.shiftLeft_eq_zero hn).symm
  · apply BitVec.eq_of_toNat_eq
    rw [BitVec.toNat_ofNat, BitVec.toNat_shiftLeft, Nat.shiftLeft_eq]

theorem shr_eq_ushiftRight (v : Word) (n : Nat) : shr v n = v >>> n := by
  unfold shr
  split_ifs with hn
  · exact (BitVec.ushiftRight_eq_zero hn).symm
  · rw [← Nat.shiftRight_eq_div_pow, ← BitVec.toNat_ushiftRight, BitVec.ofNat_toNat,
      BitVec.setWidth_eq]

theorem sra_of_lt {n : Nat} (v : Word) (hn : n < 16) : sra v n = BitVec.ofInt 16 (v.toInt / 2 ^ n) :=
  if_neg (Nat.not_le.2 hn)

/-- Past the width every bit is the sign bit. -/
theorem sra_of_ge {n : Nat} (v : Word) (hn : n ≥ 16) :
    sra v n = if v.getLsbD 15 then 0xFFFF else 0x0000 :=
  if_pos hn

theorem sra_eq_sshiftRight (v : Word) (n : Nat) : sra v n = v.sshiftRight n := by
  by_cases hn : n < 16
  · rw [sra_of_lt v hn, BitVec.sshiftRight_eq, Int.shiftRight_eq_div_pow]
    norm_cast
  · have hsign (i : Nat) (hi : i < 16) : (v.sshiftRight n)[i] = v.getLsbD 15 := by
      rw [BitVec.getElem_sshiftRight, dif_neg (by omega), BitVec.msb_eq_getLsbD_last]
    rw [sra_of_ge v (Nat.not_lt.1 hn)]
    ext i hi
    rw [hsign i hi]
    cases v.getLsbD 15
    · exact BitVec.getElem_zero hi
    · exact BitVec.getElem_allOnes i hi

theorem getLsbD_shl (v : Word) (n : Nat) {i : Nat} (hi : i < 16) :
    (shl v n).getLsbD i = (decide (n ≤ i) && v.getLsbD (i - n)) := by
  rw [shl_eq_shiftLeft, BitVec.getLsbD_shiftLeft]
  simp only [hi, decide_true, Bool.true_and, ← decide_not, Nat.not_lt]

theorem getLsbD_shr (v : Word) (n i : Nat) :
    (shr v n).getLsbD i = (decide (i + n < 16) && v.getLsbD (i + n)) := by
  rw [shr_eq_ushiftRight, BitVec.getLsbD_ushiftRight, Nat.add_comm n i]
  by_cases h : i + n < 16
  · simp [h]
  · simp [h, BitVec.getLsbD_of_ge v (i + n) (Nat.not_lt.1 h)]

theorem getLsbD_sra (v : Word) (n : Nat) {i : Nat} (hi : i < 16) :
    (sra v n).getLsbD i = if i + n < 16 then v.getLsbD (i + n) else v.getLsbD 15 := by
  rw [sra_eq_sshiftRight, BitVec.getLsbD_sshiftRight, Nat.add_comm n i, BitVec.msb_eq_getLsbD_last]
  simp [hi]

/-- Settles O20: each function is a shift of the word, whose value and bits the library gives. -/
theorem shiftFunctionsExact : Obligations.ShiftFunctionsExact := by
  intro v n
  refine ⟨?_, ?_, fun _ => ?_, sra_of_ge v, fun i => getLsbD_shl v n, fun i _ => getLsbD_shr v n i,
    fun i => getLsbD_sra v n, ?_, ?_, ?_⟩
  · rw [shl, apply_ite BitVec.toNat, BitVec.toNat_ofNat]
    rfl
  · have hlt : v.toNat / 2 ^ n < 2 ^ 16 := (Nat.div_le_self _ _).trans_lt v.isLt
    rw [shr, apply_ite BitVec.toNat, BitVec.toNat_ofNat, Nat.mod_eq_of_lt hlt]
    rfl
  · rw [sra_eq_sshiftRight, BitVec.toInt_sshiftRight, Int.shiftRight_eq_div_pow]
    norm_cast
  · rw [shl_eq_shiftLeft, BitVec.shiftLeft_zero]
  · rw [shr_eq_ushiftRight, BitVec.ushiftRight_zero]
  · rw [sra_eq_sshiftRight, BitVec.sshiftRight_zero]

-- ## SLT and SLTI (R172, R173)

/-- Settles O10: SLT writes back `setLess` of its operands with the unlisted flags. -/
theorem sltResult : Obligations.SltResult :=
  ⟨encodedAs_of_buildInstr .slt (by decide) fun _ _ _ _ => rfl,
    fun _ _ _ _ => writesUnlisted_of_writeBack rfl⟩

/-- Settles O11: the form decides what the decoder takes as comparand; SLTI compares with either. -/
theorem sltiResult : Obligations.SltiResult := by
  refine ⟨fun p w imm hp hw => ?_, fun _ _ _ _ _ =>
    ⟨writesUnlisted_of_writeBack rfl, writesUnlisted_of_writeBack rfl⟩⟩
  have hbuild := decodeWords_of_masked .slti hp hw (by decide) imm
  rw [decodeFields_eq] at hbuild
  constructor
  all_goals
    intro hform
    rw [hbuild, hform]
    rfl

-- ## The shifts (R171, R174 to R179)

/-- R171: the register amount, by a mask that is the one of each setting. -/
theorem State.regAmount_eq {s : State} {mask : Word}
    (hfull : s.params.shamtMask = .full → mask = 0xFFFF)
    (hlow4 : s.params.shamtMask = .low4 → mask = 0x000F)
    (hlow3 : s.params.shamtMask = .low3 → mask = 0x0007) (rs2 : Reg) :
    s.regAmount rs2 = (s.readReg rs2 &&& mask).toNat := by
  unfold State.regAmount
  cases h : s.params.shamtMask with
  | full => rw [hfull h, maskWord]
  | low4 => rw [hlow4 h, maskWord]
  | low3 => rw [hlow3 h, maskWord]

/-- R171: the immediate amount is the 3-bit field, unsigned. -/
theorem immAmount_eq (shamt : BitVec 3) : immAmount shamt = shamt.toNat :=
  BitVec.toNat_setWidth_of_le (by decide)

/-- Settles O12: each writes back the shift by the register amount with the unlisted flags. -/
theorem registerShiftResults : Obligations.RegisterShiftResults := by
  refine ⟨encodedAs_of_buildInstr .sll (by decide) fun _ _ _ _ => rfl,
    encodedAs_of_buildInstr .srl (by decide) fun _ _ _ _ => rfl,
    encodedAs_of_buildInstr .sra (by decide) fun _ _ _ _ => rfl,
    fun rd rs1 rs2 s mask hfull hlow4 hlow3 => ?_⟩
  simp only [← State.regAmount_eq hfull hlow4 hlow3]
  exact ⟨writesUnlisted_of_writeBack rfl, writesUnlisted_of_writeBack rfl,
    writesUnlisted_of_writeBack rfl⟩

/-- Settles O13: each writes back the shift by the immediate amount with the unlisted flags. -/
theorem immediateShiftResults : Obligations.ImmediateShiftResults := by
  refine ⟨encodedAs_of_buildInstr .slli (by decide) fun _ _ _ _ => rfl,
    encodedAs_of_buildInstr .srli (by decide) fun _ _ _ _ => rfl,
    encodedAs_of_buildInstr .srai (by decide) fun _ _ _ _ => rfl,
    fun rd rs1 shamt s => ?_⟩
  simp only [← immAmount_eq]
  exact ⟨writesUnlisted_of_writeBack rfl, writesUnlisted_of_writeBack rfl,
    writesUnlisted_of_writeBack rfl⟩

end Sys2Proof.Machine

/-! PROOFS. The control family (spec/44_control.md): the branches, STOP and the unrecognized-opcode
no-op, which words they are and what they change. -/

namespace Sys2Proof

-- ## Unassigned major opcodes (R81)

theorem Opc.assigns_eq_false_iff (o : Opc) (c : BitVec 6) :
    o.assigns c = false ↔ ∀ op, o.code op ≠ c := by
  simp [Opc.assigns, Op.mem_all]

theorem decodeWords_of_unassigned {p : Params} {w : Word}
    (h : p.opc.assigns (w.extractLsb' 10 6) = false) (imm : Word) :
    decodeWords p w imm = .unrecognized (w.extractLsb' 10 6) := by
  rw [decodeWords, decodeFields_op6, (p.opc.lookup_eq_none_iff _).2 h]

theorem reference_unassigned_iff (c : BitVec 6) :
    Opc.reference.assigns c = false ↔ c = 0 ∨ 26 ≤ c.toNat := by
  revert c
  decide

end Sys2Proof

namespace Sys2Proof.Machine

-- ## The end of an instruction that only sets the pc (R200)

theorem onlyJumps_of_jump {i : Instr} {s : State} {target : Word}
    (h : exec i s = .next (s.commit (s.jump target))) : OnlyJumps i s target :=
  ⟨_, h, s.readReg_commit_none _ rfl, ⟨rfl, rfl⟩, fun _ => rfl, ⟨rfl, rfl⟩, rfl⟩

/-- `P` is the condition in the terms of the statements, `taken` the model's test of it. -/
theorem onlyJumps_of_branch {i : Instr} {s : State} {taken : Bool} {imm : Word} {P : Prop}
    [Decidable P] (h : exec i s = s.branch taken imm) (hP : taken = true ↔ P) :
    OnlyJumps i s (if P then imm else s.pc + 4) := by
  rw [← if_congr hP rfl rfl]
  exact onlyJumps_of_jump h

-- ## The branches (R201 to R207)

/-- Settles O14: the unconditional predicate always takes the branch. -/
theorem braResult : Obligations.BraResult :=
  ⟨encodedAs_of_buildInstr .bra (by decide) fun _ _ _ _ => rfl, fun _ _ => onlyJumps_of_jump rfl⟩

/-- Settles O15: each ends in `branch`, and its test is the stated flag; BRNZ tests
the negation of Z. -/
theorem conditionalBranchResults : Obligations.ConditionalBranchResults := by
  refine ⟨encodedAs_of_buildInstr .brz (by decide) fun _ _ _ _ => rfl,
    encodedAs_of_buildInstr .brnz (by decide) fun _ _ _ _ => rfl,
    encodedAs_of_buildInstr .brn (by decide) fun _ _ _ _ => rfl,
    encodedAs_of_buildInstr .brc (by decide) fun _ _ _ _ => rfl,
    encodedAs_of_buildInstr .brv (by decide) fun _ _ _ _ => rfl, fun imm s => ?_⟩
  have hclear : s.flags.test (.isClear .zero) = true ↔ s.flags.z = false := by
    rw [Flags.test_isClear, Bool.not_eq_true', Flags.get]
  exact ⟨onlyJumps_of_branch rfl .rfl, onlyJumps_of_branch rfl hclear, onlyJumps_of_branch rfl .rfl,
    onlyJumps_of_branch rfl .rfl, onlyJumps_of_branch rfl .rfl⟩

-- ## STOP (R208)

theorem step_ne_next_of_halted {s : State} (hs : s.run = .halted) (t : State) :
    step s ≠ .next t := by
  intro h
  obtain ⟨hr, -⟩ := step_inversion h
  rw [hs] at hr
  cases hr

/-- Settles O16: STOP commits a jump to the pc P_STOP_PC chooses with the run state Halted, from
which there is no step. -/
theorem stopResult : Obligations.StopResult := by
  refine ⟨encodedAs_of_buildInstr .stop (by decide) fun _ _ _ _ => rfl, fun s => ?_⟩
  refine ⟨_, rfl, rfl, fun h => ?_, fun h => ?_, s.readReg_commit_none _ rfl, ⟨rfl, rfl⟩,
    fun _ => rfl, rfl, step_ne_next_of_halted rfl⟩
  all_goals simp only [State.commit_pc, State.jump_pc, h]

-- ## Unrecognized opcodes (R210)

/-- Settles O17: an unassigned major opcode is one the lookup does not find. -/
theorem unrecognizedIsNoOp : Obligations.UnrecognizedIsNoOp := by
  refine ⟨fun p w imm h => ?_, fun c => ?_, fun _ _ => onlyJumps_of_jump rfl⟩
  · exact decodeWords_of_unassigned ((p.opc.assigns_eq_false_iff _).2 h) imm
  · rw [← Opc.assigns_eq_false_iff]
    exact reference_unassigned_iff c

end Sys2Proof.Machine

/-! PROOFS. The reset and hazards family (spec/70_reset_and_hazards.md): a stored word lasts until the
next store to it, and a fetch reads what is there. -/

namespace Sys2Proof.Machine

-- ## What a step does to memory (spec/20_memory.md R55)

/-- An instruction leaves memory alone, or it is a SW and writes its one word. -/
theorem exec_mem_cases {i : Instr} {s t : State} (h : exec i s = .next t) :
    t.mem = s.mem ∨ ∃ rs1 rs2 imm, i = .sw rs1 rs2 imm ∧
      t.mem = Memory.writeWord s.mem (s.effectiveAddress rs1 imm) (s.readReg rs2) := by
  rcases exec_shape i s with ⟨rd, v, cc, len, e⟩ | ⟨rs1, rs2, imm, hi, e⟩ | ⟨taken, imm, e⟩ |
    ⟨-, pc, e⟩ | ⟨op6, -, e⟩
  case inr.inl =>
    rw [e] at h
    cases h
    exact .inr ⟨rs1, rs2, imm, hi, rfl⟩
  all_goals
    rw [e] at h
    cases h
    exact .inl rfl

/-- R52: a step that fetches a SW leaves the data register in the aligned word stored to. -/
theorem readWord_of_step_sw {s t : State} {rs1 rs2 : Reg} {imm b : Word}
    (hf : s.fetch = .sw rs1 rs2 imm) (h : step s = .next t)
    (hb : align b = align (s.effectiveAddress rs1 imm)) : t.readWord b = s.readReg rs2 := by
  obtain ⟨-, he⟩ := step_inversion h
  rw [hf] at he
  cases he
  exact Memory.readWord_writeWord_of_align_eq s.mem _ hb

/-- A step that spares an aligned word keeps it, at either of its addresses. -/
theorem readWord_of_step_spares {s t : State} {a b : Word} (hspares : SparesWord a s)
    (h : step s = .next t) (hb : align b = align a) : t.readWord b = s.readWord b := by
  obtain ⟨-, he⟩ := step_inversion h
  rcases exec_mem_cases he with hmem | ⟨rs1, rs2, imm, hi, hmem⟩
  · rw [State.readWord, hmem, State.readWord]
  · have hne : align (s.effectiveAddress rs1 imm) ≠ align a := hspares _ (by rw [hi, storeAddress])
    rw [State.readWord, hmem,
      Memory.readWord_writeWord_of_align_ne s.mem _ fun hab => hne (hab.symm.trans hb),
      State.readWord]

/-- A word lasts through every run that spares it. -/
theorem RunsWhile.readWord_of_spares {k : Nat} {s t : State} {a b : Word}
    (h : RunsWhile (SparesWord a) k s t) (hb : align b = align a) :
    t.readWord b = s.readWord b := by
  induction h with
  | refl s => rfl
  | step k s u t hspares hstep _ ih => exact ih.trans (readWord_of_step_spares hspares hstep hb)

/-- A stored word is what the state holds there after any run that spares it. -/
theorem readWord_of_store_of_spares {k : Nat} {s s₁ u : State} {rs1 rs2 : Reg} {imm b : Word}
    (hf : s.fetch = .sw rs1 rs2 imm) (hstep : step s = .next s₁)
    (hrun : RunsWhile (SparesWord (s.effectiveAddress rs1 imm)) k s₁ u)
    (hb : align b = align (s.effectiveAddress rs1 imm)) : u.readWord b = s.readReg rs2 :=
  (hrun.readWord_of_spares hb).trans (readWord_of_step_sw hf hstep hb)

-- ## The fetch (R259)

/-- R103: an extended instruction's immediate word is the word at `pc + 2`. -/
theorem State.fetchImm_of_extended {s : State} (h : wordExtended s.params s.fetchWord = true) :
    s.fetchImm = s.readWord (s.pc + 2) := if_pos h

/-- Settles O54: both fetched words are plain reads of memory, at `pc` and at `pc + 2`. -/
theorem laterFetchSeesStore : Obligations.LaterFetchSeesStore := by
  intro k s s₁ u rs1 rs2 imm hf hstep hrun
  refine ⟨readWord_of_store_of_spares hf hstep hrun, fun hext hb => ?_⟩
  rw [State.fetchImm_of_extended hext]
  exact readWord_of_store_of_spares hf hstep hrun hb

end Sys2Proof.Machine

/-! PROOFS. The decoder and the encoder (spec/30_encoding.md): the fields of a word, the bits a
format ignores, and that decoding and encoding agree. -/

namespace Sys2Proof

open Sys2Proof.Machine

-- ## The fields of a word (R71 to R73)

/-- R72 (D2): bit 0 of the opcode is word bit 9, which the mask clears. -/
theorem decodeFields_opcode (w : Word) :
    (decodeFields w).opcode = (w.extractLsb' 10 6).setWidth 7 <<< 1 := by
  ext i hi
  simp only [decodeFields]
  interval_cases i <;> simp

theorem decodeFields_runs (w : Word) :
    decodeFields w =
      ⟨(w.extractLsb' 10 6).setWidth 7 <<< 1, w.extractLsb' 6 3, w.extractLsb' 3 3,
        w.extractLsb' 0 3⟩ := by
  rw [decodeFields_eq, decodeFields_opcode]

theorem toNat_opcode_of_op6 (c : BitVec 6) : (c.setWidth 7 <<< 1).toNat = 2 * c.toNat := by
  rw [BitVec.toNat_shiftLeft, BitVec.toNat_setWidth, Nat.shiftLeft_eq]
  omega

theorem toNat_run (w : Word) (lo n : Nat) :
    (w.extractLsb' lo n).toNat = w.toNat / 2 ^ lo % 2 ^ n := by
  rw [BitVec.extractLsb'_toNat, Nat.shiftRight_eq_div_pow]

/-- A field cut out by a mask whose ones fit the field's width loses nothing. -/
theorem toNat_masked_field (w m : Word) {k n : Nat} (hm : m.toNat >>> k < 2 ^ n) :
    (((w &&& m) >>> k).setWidth n).toNat = (w.toNat &&& m.toNat) >>> k := by
  have hle : (w.toNat &&& m.toNat) >>> k ≤ m.toNat >>> k := by
    rw [Nat.shiftRight_eq_div_pow, Nat.shiftRight_eq_div_pow]
    exact Nat.div_le_div_right Nat.and_le_right
  rw [BitVec.toNat_setWidth, BitVec.toNat_ushiftRight, BitVec.toNat_and,
    Nat.mod_eq_of_lt (hle.trans_lt hm)]

/-- D2: bit 9 lies in none of the four runs. -/
theorem decodeFields_flip_bit9 (w : Word) : decodeFields (w ^^^ 0x0200#16) = decodeFields w := by
  simp [decodeFields_runs, BitVec.extractLsb'_xor]

/-- Settles O24: each mask keeps one run of bits, and bit 9 is in none. -/
theorem decoderFieldEquations : Obligations.DecoderFieldEquations := by
  intro w
  have hw : w.toNat < 65536 := w.isLt
  refine ⟨toNat_masked_field w 0xFD00#16 (by decide), toNat_masked_field w 0x01C0#16 (by decide),
    toNat_masked_field w 0x0038#16 (by decide), toNat_masked_field w 0x0007#16 (k := 0) (by decide),
    ?_, ?_, ?_, ?_, decodeFields_op6 w, decodeFields_flip_bit9 w, fun p imm => ?_⟩
  · rw [decodeFields_opcode, toNat_opcode_of_op6, toNat_run]
    omega
  · rw [decodeFields_rd, toNat_run]
    omega
  · rw [decodeFields_rs1, toNat_run]
    omega
  · rw [decodeFields_rs2, toNat_run]
    omega
  · rw [decodeWords, decodeWords, decodeFields_flip_bit9]

-- ## The fields of a packed word (R75)

theorem packWord_run_op6 (op6 : BitVec 6) (rd rs1 rs2 : BitVec 3) :
    (packWord op6 rd rs1 rs2).extractLsb' 10 6 = op6 := by
  apply BitVec.eq_of_toNat_eq
  rw [toNat_run, packWord_toNat]
  omega

theorem packWord_run_rd (op6 : BitVec 6) (rd rs1 rs2 : BitVec 3) :
    (packWord op6 rd rs1 rs2).extractLsb' 6 3 = rd := by
  apply BitVec.eq_of_toNat_eq
  rw [toNat_run, packWord_toNat]
  omega

theorem packWord_run_rs1 (op6 : BitVec 6) (rd rs1 rs2 : BitVec 3) :
    (packWord op6 rd rs1 rs2).extractLsb' 3 3 = rs1 := by
  apply BitVec.eq_of_toNat_eq
  rw [toNat_run, packWord_toNat]
  omega

theorem packWord_run_rs2 (op6 : BitVec 6) (rd rs1 rs2 : BitVec 3) :
    (packWord op6 rd rs1 rs2).extractLsb' 0 3 = rs2 := by
  apply BitVec.eq_of_toNat_eq
  rw [toNat_run, packWord_toNat]
  omega

theorem decodeFields_packWord (op6 : BitVec 6) (rd rs1 rs2 : BitVec 3) :
    decodeFields (packWord op6 rd rs1 rs2) = ⟨op6.setWidth 7 <<< 1, rd, rs1, rs2⟩ := by
  rw [decodeFields_runs, packWord_run_op6, packWord_run_rd, packWord_run_rs1, packWord_run_rs2]

/-- D2: the encoder emits bit 9 as 0. -/
theorem packWord_bit9 (op6 : BitVec 6) (rd rs1 rs2 : BitVec 3) :
    (packWord op6 rd rs1 rs2).getLsbD 9 = false := by
  rw [← BitVec.testBit_toNat, packWord_toNat, Nat.testBit_eq_decide_div_mod_eq,
    decide_eq_false_iff_not]
  omega

/-- Settles O26: the four runs of a packed word are the parts it was packed from. -/
theorem fieldRoundTrip : Obligations.FieldRoundTrip := by
  intro op6 rd rs1 rs2
  rw [decodeFields_packWord]
  exact ⟨toNat_opcode_of_op6 op6, rfl, rfl, rfl, packWord_bit9 op6 rd rs1 rs2⟩

/-- A word with bit 9 clear is packed from its own fields. -/
theorem packWord_fields {w : Word} (h : w.getLsbD 9 = false) :
    packWord (decodeFields w).op6 (decodeFields w).rd (decodeFields w).rs1 (decodeFields w).rs2
      = w := by
  have hw : w.toNat < 65536 := w.isLt
  rw [← BitVec.testBit_toNat, Nat.testBit_eq_decide_div_mod_eq, decide_eq_false_iff_not] at h
  apply BitVec.eq_of_toNat_eq
  rw [packWord_toNat, decodeFields_op6, decodeFields_rd, decodeFields_rs1, decodeFields_rs2,
    toNat_run, toNat_run, toNat_run, toNat_run]
  omega

-- ## Ignored bits (R79)

@[simp] theorem and_ones_3 (x : BitVec 3) : x &&& 7#3 = x := BitVec.and_allOnes

@[simp] theorem and_ones_6 (x : BitVec 6) : x &&& 63#6 = x := BitVec.and_allOnes

@[simp] theorem usedBits_run_op6 (form : SltiForm) (op : Op) :
    (usedBits form op).extractLsb' 10 6 = 63#6 := by
  cases op
  case slti => cases form <;> decide
  all_goals simp [usedBits]

@[simp] theorem usedBitsOf_run_op6 (p : Params) (w : Word) :
    (usedBitsOf p w).extractLsb' 10 6 = 63#6 := by
  unfold usedBitsOf
  cases p.opc.lookup (w.extractLsb' 10 6) with
  | none =>
    change (0xFC00#16).extractLsb' 10 6 = 63#6
    decide
  | some op => exact usedBits_run_op6 p.sltiForm op

theorem masked_run_op6 (p : Params) (v w : Word) :
    (w &&& usedBitsOf p v).extractLsb' 10 6 = w.extractLsb' 10 6 := by
  rw [BitVec.extractLsb'_and, usedBitsOf_run_op6, and_ones_6]

theorem usedBitsOf_of_lookup {p : Params} {w : Word} {op : Op}
    (h : p.opc.lookup (w.extractLsb' 10 6) = some op) :
    usedBitsOf p w = usedBits p.sltiForm op := by
  rw [usedBitsOf, h]

theorem usedBitsOf_congr {p : Params} {w w' : Word}
    (h : w.extractLsb' 10 6 = w'.extractLsb' 10 6) : usedBitsOf p w = usedBitsOf p w' := by
  rw [usedBitsOf, h, usedBitsOf]

/-- The fields under each of the four masks: those the mask keeps, and 0. -/
theorem decodeFields_mask_all (w : Word) : decodeFields (w &&& 0xFDFF) = decodeFields w := by
  simp [decodeFields_runs, BitVec.extractLsb'_and]

theorem decodeFields_mask_rd_rs1 (w : Word) :
    decodeFields (w &&& 0xFDF8) = { decodeFields w with rs2 := 0 } := by
  simp [decodeFields_runs, BitVec.extractLsb'_and]

theorem decodeFields_mask_rs1_rs2 (w : Word) :
    decodeFields (w &&& 0xFC3F) = { decodeFields w with rd := 0 } := by
  simp [decodeFields_runs, BitVec.extractLsb'_and]

theorem decodeFields_mask_op6 (w : Word) :
    decodeFields (w &&& 0xFC00) = { decodeFields w with rd := 0, rs1 := 0, rs2 := 0 } := by
  simp [decodeFields_runs, BitVec.extractLsb'_and]

/-- A mnemonic is built from the fields its mask keeps and from no other. -/
theorem buildInstr_masked (form : SltiForm) (op : Op) (w imm : Word) :
    buildInstr form op (decodeFields (w &&& usedBits form op)) imm
      = buildInstr form op (decodeFields w) imm := by
  cases op
  case add | sub | and | or | xor | slt | sll | srl | sra | slli | srli | srai =>
    rw [usedBits, decodeFields_mask_all]
  case not | mv | addi | lw =>
    rw [usedBits, decodeFields_mask_rd_rs1]
    rfl
  case slti =>
    cases form
    · rw [usedBits, if_pos rfl, decodeFields_mask_rd_rs1]
      rfl
    · rw [usedBits, if_neg (by decide), decodeFields_mask_all]
  case sw =>
    rw [usedBits, decodeFields_mask_rs1_rs2]
    rfl
  case bra | brz | brnz | brn | brc | brv | stop => rfl

theorem decodeWords_masked (p : Params) (w imm : Word) :
    decodeWords p (w &&& usedBitsOf p w) imm = decodeWords p w imm := by
  simp only [decodeWords, decodeFields_op6, masked_run_op6]
  cases hop : p.opc.lookup (w.extractLsb' 10 6) with
  | none => rfl
  | some op =>
    rw [usedBitsOf_of_lookup hop]
    exact buildInstr_masked p.sltiForm op w imm

theorem packWord_mask_all (w : Word) :
    packWord (decodeFields w).op6 (decodeFields w).rd (decodeFields w).rs1 (decodeFields w).rs2
      = w &&& 0xFDFF := by
  have h := packWord_fields (w := w &&& 0xFDFF) (by simp)
  rwa [decodeFields_mask_all] at h

theorem packWord_mask_rd_rs1 (w : Word) :
    packWord (decodeFields w).op6 (decodeFields w).rd (decodeFields w).rs1 0 = w &&& 0xFDF8 := by
  have h := packWord_fields (w := w &&& 0xFDF8) (by simp)
  rwa [decodeFields_mask_rd_rs1] at h

theorem packWord_mask_rs1_rs2 (w : Word) :
    packWord (decodeFields w).op6 0 (decodeFields w).rs1 (decodeFields w).rs2 = w &&& 0xFC3F := by
  have h := packWord_fields (w := w &&& 0xFC3F) (by simp)
  rwa [decodeFields_mask_rs1_rs2] at h

theorem packWord_mask_op6 (w : Word) :
    packWord (decodeFields w).op6 0 0 0 = w &&& 0xFC00 := by
  have h := packWord_fields (w := w &&& 0xFC00) (by simp)
  rwa [decodeFields_mask_op6] at h

/-- D3: LI is encoded as the ADDI from r0 it stands for. -/
theorem encode_li (p : Params) (rd : Reg) (imm : Word) :
    encode p (.li rd imm) = encode p (.addi rd .r0 imm) := rfl

/-- Whether the decoder spells it LI or ADDI, the words are ADDI's. -/
theorem encode_addi_or_li (p : Params) (rd rs1 : Reg) (imm : Word) :
    encode p (if rs1 = .r0 then .li rd imm else .addi rd rs1 imm)
      = encode p (.addi rd rs1 imm) := by
  split_ifs with h
  · rw [encode_li, h]
  · rfl

/-- The words of a mnemonic built from a word: the bits its mask keeps, and its immediate word. -/
theorem encode_buildInstr {p : Params} {w : Word} {op : Op}
    (hop : p.opc.code op = (decodeFields w).op6) (imm : Word) :
    encode p (buildInstr p.sltiForm op (decodeFields w) imm)
      = (w &&& usedBits p.sltiForm op) :: (if op.extended p.sltiForm then [imm] else []) := by
  have hbits := Reg.toBits_ofBits
  cases op
  case add | sub | and | or | xor | slt | sll | srl | sra | slli | srli | srai =>
    rw [usedBits, ← packWord_mask_all, ← hop]
    simp [buildInstr, encode, Opc.code, Op.extended, hbits]
  case not | mv | lw =>
    rw [usedBits, ← packWord_mask_rd_rs1, ← hop]
    simp [buildInstr, encode, Opc.code, Op.extended, hbits]
  case addi =>
    rw [usedBits, ← packWord_mask_rd_rs1, ← hop, buildInstr, encode_addi_or_li]
    simp [encode, Opc.code, Op.extended, hbits]
  case slti =>
    cases p.sltiForm
    · rw [usedBits, if_pos rfl, ← packWord_mask_rd_rs1, ← hop]
      simp [buildInstr, encode, Opc.code, Op.extended, hbits]
    · rw [usedBits, if_neg (by decide), ← packWord_mask_all, ← hop]
      simp [buildInstr, encode, Opc.code, Op.extended, hbits]
  case sw =>
    rw [usedBits, ← packWord_mask_rs1_rs2, ← hop]
    simp [buildInstr, encode, Opc.code, Op.extended, hbits]
  case bra | brz | brnz | brn | brc | brv | stop =>
    rw [usedBits, ← packWord_mask_op6, ← hop]
    simp [buildInstr, encode, Opc.code, Op.extended]

theorem encode_decodeWords (p : Params) (w imm : Word) :
    encode p (decodeWords p w imm)
      = (w &&& usedBitsOf p w) :: (if wordExtended p w then [imm] else []) := by
  rw [decodeWords, wordExtended, usedBitsOf, ← decodeFields_op6]
  cases hop : p.opc.lookup (decodeFields w).op6 with
  | none => exact congrArg (· :: []) (packWord_mask_op6 w)
  | some op => exact encode_buildInstr (Opc.lookup_some hop) imm

/-- Settles O25: decoding reads a word through its used bits, and encoding emits no others. -/
theorem ignoredBits : Obligations.IgnoredBits := by
  refine ⟨fun p w w' imm h => ?_, encode_decodeWords⟩
  have hop6 : w.extractLsb' 10 6 = w'.extractLsb' 10 6 := by
    rw [← masked_run_op6 p w w, h, masked_run_op6]
  calc decodeWords p w imm
      = decodeWords p (w' &&& usedBitsOf p w') imm := by
        rw [← usedBitsOf_congr hop6, ← h, decodeWords_masked]
    _ = decodeWords p w' imm := decodeWords_masked p w' imm

-- ## Decoding bytes (R70, R74)

/-- Settles O27: the length of the list and the first word decide between the two readings and the
two refusals. -/
theorem decodeTotal : Obligations.DecodeTotal := by
  refine ⟨fun p b₀ b₁ b₂ b₃ rest => ?_, decode_plain, decode_extended, fun p bs hlen => ?_,
    fun p b₀ b₁ bs hlen hext => ?_⟩
  · cases hext : wordExtended p (b₀ ++ b₁) with
    | false => exact ⟨_, _, decode_plain p b₀ b₁ _ hext⟩
    | true => exact ⟨_, _, decode_extended p b₀ b₁ b₂ b₃ rest hext⟩
  · match bs with
    | [] => rfl
    | [_] => rfl
    | _ :: _ :: _ => simp at hlen
  · match bs with
    | [] => simp [decode, hext]
    | [_] => simp [decode, hext]
    | _ :: _ :: _ => simp at hlen

/-- Reading back one word, and the immediate word where it announces one. -/
theorem decode_words (p : Params) (w imm : Word) (rest : List Byte) :
    decode p (wordsToBytes (w :: (if wordExtended p w then [imm] else [])) ++ rest)
      = .ok (decodeWords p w imm, rest) := by
  have hw := Word.bytes_append w
  cases hext : wordExtended p w with
  | false =>
    have hplain := decode_plain p (w.extractLsb' 8 8) (w.extractLsb' 0 8) rest (by rwa [hw])
    rw [hw, decodeWords_imm_unused p w 0 imm hext] at hplain
    exact hplain
  | true =>
    have hext' := decode_extended p (w.extractLsb' 8 8) (w.extractLsb' 0 8) (imm.extractLsb' 8 8)
      (imm.extractLsb' 0 8) rest (by rwa [hw])
    rw [hw, Word.bytes_append imm] at hext'
    exact hext'

/-- What a list that decodes holds: an instruction word and as much after it as that word
announces. -/
theorem decode_ok {p : Params} {bs rest : List Byte} {i : Instr} (h : decode p bs = .ok (i, rest)) :
    ∃ w imm, i = decodeWords p w imm ∧
      bs.length = (if wordExtended p w then 4 else 2) + rest.length := by
  match bs with
  | hi :: lo :: bs =>
    cases hext : wordExtended p (hi ++ lo) with
    | false =>
      rw [decode_plain p hi lo bs hext] at h
      cases h
      exact ⟨_, 0, rfl, by simpa [hext] using Nat.add_comm _ 2⟩
    | true =>
      match bs with
      | ihi :: ilo :: bs =>
        rw [decode_extended p hi lo ihi ilo bs hext] at h
        cases h
        exact ⟨_, _, rfl, by simpa [hext] using Nat.add_comm _ 4⟩
      | [] | [_] => simp [decode, hext] at h
  | [] | [_] => simp [decode] at h

-- ## Well-formed instructions are the decoded ones

theorem buildInstr_wellFormed (p : Params) (op : Op) (f : Fields) (imm : Word) :
    (buildInstr p.sltiForm op f imm).wellFormed p = true := by
  cases op
  case addi =>
    rw [buildInstr]
    split_ifs with h
    · rfl
    · simpa [Instr.wellFormed] using h
  case slti => cases h : p.sltiForm <;> simp [buildInstr, Instr.wellFormed, h, SltiOperand.form]
  all_goals rfl

theorem decodeWords_wellFormed (p : Params) (w imm : Word) :
    (decodeWords p w imm).wellFormed p = true := by
  unfold decodeWords
  cases h : p.opc.lookup (decodeFields w).op6 with
  | none => simpa [Instr.wellFormed] using (Opc.lookup_eq_none_iff _ _).1 h
  | some op => exact buildInstr_wellFormed p op _ imm

/-- Settles O30: a decoded instruction is as long as its word announces. -/
theorem decodedWellFormed : Obligations.DecodedWellFormed := by
  intro p bs rest i h
  obtain ⟨w, imm, rfl, hlen⟩ := decode_ok h
  refine ⟨decodeWords_wellFormed p w imm, ?_⟩
  rw [hlen, decodeWords_length]
  cases wordExtended p w <;> rfl

/-- Under an injective OPC a word packed with a mnemonic's code is built as that mnemonic. -/
theorem decodeWords_packWord {p : Params} (hp : p.wf) (op : Op) (rd rs1 rs2 : BitVec 3)
    (imm : Word) :
    decodeWords p (packWord (p.opc.code op) rd rs1 rs2) imm
      = buildInstr p.sltiForm op ⟨(p.opc.code op).setWidth 7 <<< 1, rd, rs1, rs2⟩ imm := by
  rw [decodeWords, decodeFields_op6, packWord_run_op6, Opc.lookup_code hp, decodeFields_packWord]

theorem exists_decodeWords_of_buildInstr {p : Params} (hp : p.wf) {i : Instr} (op : Op)
    (rd rs1 rs2 : BitVec 3) (imm : Word)
    (h : ∀ opcode, buildInstr p.sltiForm op ⟨opcode, rd, rs1, rs2⟩ imm = i) :
    ∃ w imm, decodeWords p w imm = i :=
  ⟨_, imm, (decodeWords_packWord hp op rd rs1 rs2 imm).trans (h _)⟩

/-- Under an injective OPC every well-formed instruction is the decoding of some word: the one its
fields are packed into. -/
theorem exists_decodeWords_of_wellFormed {p : Params} (hp : p.wf) {i : Instr}
    (hi : i.wellFormed p = true) : ∃ w imm, decodeWords p w imm = i := by
  have hbuild := exists_decodeWords_of_buildInstr hp (i := i)
  have hrrr (op : Op) (rd rs1 rs2 : Reg) := hbuild op rd.toBits rs1.toBits rs2.toBits 0
  have hrsh (op : Op) (rd rs1 : Reg) (k : BitVec 3) := hbuild op rd.toBits rs1.toBits k 0
  have hreg := Reg.ofBits_toBits
  cases i with
  | add rd rs1 rs2 => exact hrrr .add rd rs1 rs2 (by simp [buildInstr, hreg])
  | sub rd rs1 rs2 => exact hrrr .sub rd rs1 rs2 (by simp [buildInstr, hreg])
  | and rd rs1 rs2 => exact hrrr .and rd rs1 rs2 (by simp [buildInstr, hreg])
  | or rd rs1 rs2 => exact hrrr .or rd rs1 rs2 (by simp [buildInstr, hreg])
  | xor rd rs1 rs2 => exact hrrr .xor rd rs1 rs2 (by simp [buildInstr, hreg])
  | not rd rs1 => exact hrsh .not rd rs1 0 (by simp [buildInstr, hreg])
  | mv rd rs1 => exact hrsh .mv rd rs1 0 (by simp [buildInstr, hreg])
  | addi rd rs1 imm =>
    have hrs1 : rs1 ≠ .r0 := by simpa [Instr.wellFormed] using hi
    exact hbuild .addi rd.toBits rs1.toBits 0 imm (by simp [buildInstr, hreg, hrs1])
  | li rd imm => exact hbuild .addi rd.toBits Reg.r0.toBits 0 imm (by simp [buildInstr, hreg])
  | lw rd rs1 imm => exact hbuild .lw rd.toBits rs1.toBits 0 imm (by simp [buildInstr, hreg])
  | sw rs1 rs2 imm => exact hbuild .sw 0 rs1.toBits rs2.toBits imm (by simp [buildInstr, hreg])
  | slt rd rs1 rs2 => exact hrrr .slt rd rs1 rs2 (by simp [buildInstr, hreg])
  | slti rd rs1 k =>
    have hform : k.form = p.sltiForm := by simpa [Instr.wellFormed] using hi
    cases k with
    | imm16 imm =>
      exact hbuild .slti rd.toBits rs1.toBits 0 imm
        (by simp [buildInstr, hreg, ← hform, SltiOperand.form])
    | field3 k =>
      exact hrsh .slti rd rs1 k
        (by simp [buildInstr, hreg, ← hform, SltiOperand.form])
  | sll rd rs1 rs2 => exact hrrr .sll rd rs1 rs2 (by simp [buildInstr, hreg])
  | slli rd rs1 shamt => exact hrsh .slli rd rs1 shamt (by simp [buildInstr, hreg])
  | srl rd rs1 rs2 => exact hrrr .srl rd rs1 rs2 (by simp [buildInstr, hreg])
  | srli rd rs1 shamt => exact hrsh .srli rd rs1 shamt (by simp [buildInstr, hreg])
  | sra rd rs1 rs2 => exact hrrr .sra rd rs1 rs2 (by simp [buildInstr, hreg])
  | srai rd rs1 shamt => exact hrsh .srai rd rs1 shamt (by simp [buildInstr, hreg])
  | bra imm => exact hbuild .bra 0 0 0 imm (fun _ => rfl)
  | brz imm => exact hbuild .brz 0 0 0 imm (fun _ => rfl)
  | brnz imm => exact hbuild .brnz 0 0 0 imm (fun _ => rfl)
  | brn imm => exact hbuild .brn 0 0 0 imm (fun _ => rfl)
  | brc imm => exact hbuild .brc 0 0 0 imm (fun _ => rfl)
  | brv imm => exact hbuild .brv 0 0 0 imm (fun _ => rfl)
  | stop => exact hbuild .stop 0 0 0 0 (fun _ => rfl)
  | unrecognized op6 =>
    have hun : p.opc.assigns op6 = false := by simpa [Instr.wellFormed] using hi
    refine ⟨packWord op6 0 0 0, 0, ?_⟩
    rw [decodeWords_of_unassigned, packWord_run_op6]
    rwa [packWord_run_op6]

theorem wordExtended_masked (p : Params) (w : Word) :
    wordExtended p (w &&& usedBitsOf p w) = wordExtended p w := by
  rw [wordExtended, decodeFields_op6, masked_run_op6, wordExtended, decodeFields_op6]

/-- Settles O29: a well-formed instruction is the decoding of a word, and is encoded as the used
bits of that word, which decode to the same. -/
theorem decodeEncodeRoundTrip : Obligations.DecodeEncodeRoundTrip := by
  intro p i rest hp hi
  obtain ⟨w, imm, rfl⟩ := exists_decodeWords_of_wellFormed hp hi
  rw [encode_decodeWords, ← wordExtended_masked, decode_words, decodeWords_masked]

/-- Settles O31: fixed words, evaluated. -/
theorem specWordsDecode : Obligations.SpecWordsDecode := by
  unfold Obligations.SpecWordsDecode
  decide

end Sys2Proof

/-! PROOFS. Flags and registers of one instruction (spec/10_state.md, spec/41_alu.md): the flag
formulas, and SUB as a compare. -/

namespace Sys2Proof.Machine

-- ## Addition and subtraction (R120, R121)

theorem signedOverflow_iff (x : Int) :
    signedOverflow x = true ↔ ¬(-32768 ≤ x ∧ x ≤ 32767) := by
  rw [signedOverflow, Bool.not_eq_true', decide_eq_false_iff_not]

theorem negativeFlag_eq_msb (r : Word) : negativeFlag r = r.msb :=
  (BitVec.msb_eq_getLsbD_last r).symm

theorem signedOverflow_add (a b : Word) :
    signedOverflow (a.toInt + b.toInt) = a.saddOverflow b := by
  rw [Bool.eq_iff_iff, signedOverflow_iff, BitVec.saddOverflow, Bool.or_eq_true, decide_eq_true_iff,
    decide_eq_true_iff]
  omega

theorem signedOverflow_sub (a b : Word) :
    signedOverflow (a.toInt - b.toInt) = a.ssubOverflow b := by
  rw [Bool.eq_iff_iff, signedOverflow_iff, BitVec.ssubOverflow, Bool.or_eq_true, decide_eq_true_iff,
    decide_eq_true_iff]
  omega

/-- G2: the operands agree in sign and the sum does not. -/
theorem signedOverflow_add_iff_bits (a b : Word) :
    signedOverflow (a.toInt + b.toInt) = true ↔
      a.getLsbD 15 = b.getLsbD 15 ∧ (a + b).getLsbD 15 ≠ a.getLsbD 15 := by
  rw [signedOverflow_add, BitVec.saddOverflow_eq]
  simp only [← negativeFlag_eq_msb, negativeFlag]
  cases a.getLsbD 15 <;> cases b.getLsbD 15 <;> cases (a + b).getLsbD 15 <;> decide

/-- G3: the operands differ in sign and the difference has not the sign of the first. -/
theorem signedOverflow_sub_iff_bits (a b : Word) :
    signedOverflow (a.toInt - b.toInt) = true ↔
      a.getLsbD 15 ≠ b.getLsbD 15 ∧ (a - b).getLsbD 15 ≠ a.getLsbD 15 := by
  rw [signedOverflow_sub, BitVec.ssubOverflow_eq]
  simp only [← negativeFlag_eq_msb, negativeFlag]
  cases a.getLsbD 15 <;> cases b.getLsbD 15 <;> cases (a - b).getLsbD 15 <;> decide

/-- Settles O18: the exact sum is out of range as the library's signed overflow is, which has the
bit formula. -/
theorem addFlagsExact : Obligations.AddFlagsExact := by
  intro a b
  exact ⟨rfl, decide_eq_true_iff, rfl, signedOverflow_iff _, signedOverflow_add_iff_bits a b⟩

/-- G4: no borrow is a carry out of `a + ~b + 1`. -/
theorem le_iff_carry_out (a b : Word) :
    b.toNat ≤ a.toNat ↔ 65536 ≤ a.toNat + (~~~b).toNat + 1 := by
  rw [BitVec.toNat_not]
  omega

/-- Settles O19: overflow as for the sum; the carry out is counted in integers. -/
theorem subFlagsExact : Obligations.SubFlagsExact := by
  intro p a b
  exact ⟨rfl, rfl, signedOverflow_iff _, signedOverflow_sub_iff_bits a b, decide_eq_true_iff,
    decide_eq_true_iff, decide_eq_true_iff.trans (le_iff_carry_out a b)⟩

/-- The sign of a difference is wrong exactly on overflow. -/
theorem negativeFlag_ne_signedOverflow_iff (a b : Word) :
    negativeFlag (a - b) ≠ signedOverflow (a.toInt - b.toInt) ↔ a.toInt < b.toInt := by
  have hla := a.le_toInt
  have hlb := b.le_toInt
  have hua := a.toInt_lt
  have hub := b.toInt_lt
  have hneg : negativeFlag (a - b) = true ↔ (a.toInt - b.toInt).bmod (2 ^ 16) < 0 := by
    rw [negativeFlag_eq_msb, BitVec.msb_eq_toInt, decide_eq_true_iff, BitVec.toInt_sub]
  rw [ne_eq, Bool.eq_iff_iff, hneg, signedOverflow_iff, Int.bmod_def]
  omega

/-- Settles O23: BRC and BRZ test the C and Z that SUB leaves. -/
theorem subtractCompares : Obligations.SubtractCompares := by
  intro ra rb imm s hborrow
  obtain ⟨t, ht, -, hflags, -⟩ := exec_writeBack_spec (i := .sub .r0 ra rb) (s := s) rfl
  rw [hborrow, State.writeFlags_flags] at hflags
  refine ⟨t, ht, onlyJumps_of_branch rfl ?_, onlyJumps_of_branch rfl ?_, ?_⟩
  · rw [hflags]
    exact decide_eq_true_iff
  · rw [hflags, ← sub_eq_zero (a := s.readReg ra)]
    exact decide_eq_true_iff
  · rw [hflags]
    exact negativeFlag_ne_signedOverflow_iff _ _

end Sys2Proof.Machine

/-! PROOFS. What an instruction reads, writes and keeps (spec/10_state.md,
spec/40_execution_cycle.md). -/

namespace Sys2Proof.Machine

-- ## LI and the discarded result (R124, R133)

theorem exec_li (rd : Reg) (imm : Word) (s : State) :
    exec (.li rd imm) s = exec (.addi rd .r0 imm) s := by
  have hzero : s.readReg .r0 + imm = imm := BitVec.zero_add imm
  change s.writeBack rd imm s.unlistedFlags 4
    = s.writeBack rd (s.readReg .r0 + imm) s.unlistedFlags 4
  rw [hzero]

/-- The mask 0xFC38 keeps the major opcode and the rs1 field. -/
theorem fields_of_li_word {w : Word} (hw : w &&& 0xFC38#16 = 0x2000#16) :
    w &&& 0xFC00#16 = 0x2000#16 ∧ fieldReg w 3 = .r0 := by
  have hop : w &&& 0xFC00#16 = (w &&& 0xFC38#16) &&& 0xFC00#16 := by
    rw [BitVec.and_assoc]
    rfl
  have hrs1 : w.extractLsb' 3 3 = (w &&& 0xFC38#16).extractLsb' 3 3 := by
    rw [BitVec.extractLsb'_and]
    exact (and_ones_3 _).symm
  rw [hop, fieldReg, hrs1, hw]
  decide

/-- Settles O7: the decoder spells ADDI from r0 as LI, and 0 + imm is imm. -/
theorem liResult : Obligations.LiResult := by
  refine ⟨fun p w imm hp hw => ?_, encode_li, fun rd imm s =>
    ⟨writesUnlisted_of_writeBack rfl, exec_li rd imm s⟩⟩
  obtain ⟨hop, hrs1⟩ := fields_of_li_word hw
  obtain ⟨haddi, -⟩ := addiResult
  rw [haddi p w imm hp hop]
  exact if_pos hrs1

/-- Where the result goes does not reach the flags. -/
theorem writeBack_r0 (s : State) (rd : Reg) (v : Word) (cc : FlagWrite) (len : Word) :
    ∃ t₀ t, s.writeBack .r0 v cc len = .next t₀ ∧ s.writeBack rd v cc len = .next t ∧
      KeepsRegs s t₀ ∧ t₀.flags = t.flags ∧ t₀.draws = t.draws :=
  ⟨_, _, rfl, rfl, fun _ => rfl, rfl, rfl⟩

/-- Settles O21: each of the five ends in `writeBack` with a flag write that does not name rd. -/
theorem flagsWrittenWithR0 : Obligations.FlagsWrittenWithR0 := by
  rintro op rd rs1 rs2 s (rfl | rfl | rfl | rfl | rfl)
  all_goals exact writeBack_r0 s rd _ _ _

-- ## Which flags an instruction writes (R28, R29)

variable {s : State} {f : Flag}

theorem State.logicFlags_get_of_notWritten {r : Word}
    (h : (f == .zero || f == .negative || s.params.logicCv != .preserve) = false) :
    (s.logicFlags r).flags.get f = s.flags.get f := by
  obtain ⟨⟨hz, hn⟩, hcv⟩ : (f ≠ .zero ∧ f ≠ .negative) ∧ s.params.logicCv = .preserve := by
    simpa using h
  simp [State.logicFlags, hcv, hz, hn]

theorem State.unlistedFlags_get_of_notWritten (h : (s.params.flagsUnlisted == .havoc) = false) :
    s.unlistedFlags.flags.get f = s.flags.get f := by
  cases hp : s.params.flagsUnlisted with
  | preserve => rw [State.unlistedFlags_of_preserve hp, State.keepFlags_flags]
  | havoc => simp [hp] at h

theorem State.logicFlags_get_withFlags {g : Flags} {r : Word}
    (h : (f == .zero || f == .negative || s.params.logicCv != .preserve) = true) :
    (s.logicFlags r).flags.get f = ({ s with flags := g }.logicFlags r).flags.get f := by
  cases f
  case zero | negative => cases hp : s.params.logicCv <;> simp [State.logicFlags, hp]
  case carry | overflow => cases hp : s.params.logicCv <;> simp_all [State.logicFlags]

theorem State.unlistedFlags_get_withFlags {g : Flags}
    (h : (s.params.flagsUnlisted == .havoc) = true) :
    s.unlistedFlags.flags.get f = { s with flags := g }.unlistedFlags.flags.get f := by
  have hp : s.params.flagsUnlisted = .havoc := by simpa using h
  rw [State.unlistedFlags_of_havoc hp, State.unlistedFlags_of_havoc (s := { s with flags := g }) hp]

theorem exec_keeps_unwritten_flag {i : Instr} {t : State} (ht : exec i s = .next t)
    (h : writesFlag s.params i f = false) : t.flags.get f = s.flags.get f := by
  cases i
  case add | sub => cases h
  case and | or | xor =>
    cases ht
    exact State.logicFlags_get_of_notWritten h
  case not | addi | li | slt | slti | sll | slli | srl | srli | sra | srai =>
    cases ht
    exact State.unlistedFlags_get_of_notWritten h
  all_goals
    cases ht
    rfl

theorem exec_written_flag_withFlags {i : Instr} {t t' : State} {g : Flags} (ht : exec i s = .next t)
    (ht' : exec i { s with flags := g } = .next t') (h : writesFlag s.params i f = true) :
    t.flags.get f = t'.flags.get f := by
  cases i
  case add | sub =>
    cases ht
    cases ht'
    rfl
  case and | or | xor =>
    cases ht
    cases ht'
    exact State.logicFlags_get_withFlags h
  case not | addi | li | slt | slti | sll | slli | srl | srli | sra | srai =>
    cases ht
    cases ht'
    exact State.unlistedFlags_get_withFlags h
  all_goals cases h

/-- Settles O41: three kinds of flag write, by what each does to one flag. -/
theorem flagWriters : Obligations.FlagWriters :=
  ⟨fun _ _ _ _ => exec_keeps_unwritten_flag, fun _ _ _ _ _ _ => exec_written_flag_withFlags⟩

-- ## Which registers an instruction reads and writes (R24, R26)

/-- Both complete by the same effect, which writes register `rd` or none. -/
def SameEffect (rd : Option Reg) (s s' : State) (a b : Result) : Prop :=
  ∃ e, a = .next (s.commit e) ∧ b = .next (s'.commit e) ∧ e.reg.map Prod.fst = rd

/-- Every instruction is one effect, which depends on the registers it reads alone. -/
theorem exec_withRegs {x : Regs} (i : Instr) (hread : ∀ r ∈ readRegs i, s.readReg r = x.read r) :
    SameEffect (writtenReg i) s { s with regs := x } (exec i s) (exec i { s with regs := x }) := by
  have hsame (r : Reg) (hr : r ∈ readRegs i) : { s with regs := x }.readReg r = s.readReg r :=
    (hread r hr).symm
  cases i
  case add rd rs1 rs2 | sub rd rs1 rs2 | and rd rs1 rs2 | or rd rs1 rs2 | xor rd rs1 rs2
    | slt rd rs1 rs2 | sll rd rs1 rs2 | srl rd rs1 rs2 | sra rd rs1 rs2 | sw rs1 rs2 imm =>
    have h1 := hsame rs1 (by simp [readRegs])
    have h2 := hsame rs2 (by simp [readRegs])
    simp only [exec, execAdd, execSub, execAnd, execOr, execXor, execSlt, execSll, execSrl, execSra,
      execSw, State.regAmount, State.effectiveAddress, h1, h2]
    exact ⟨_, rfl, rfl, rfl⟩
  case not rd rs1 | mv rd rs1 | addi rd rs1 imm | lw rd rs1 imm | slti rd rs1 k
    | slli rd rs1 k | srli rd rs1 k | srai rd rs1 k =>
    have h1 := hsame rs1 (by simp [readRegs])
    simp only [exec, execNot, execMv, execAddi, execLw, execSlti, execSlli, execSrli, execSrai,
      State.effectiveAddress, h1]
    exact ⟨_, rfl, rfl, rfl⟩
  case li | bra | brz | brnz | brn | brc | brv | stop | unrecognized => exact ⟨_, rfl, rfl, rfl⟩

theorem exec_keeps_unwritten_reg {i : Instr} {t : State} {q : Reg} (ht : exec i s = .next t)
    (hq : writtenReg i ≠ some q) : t.readReg q = s.readReg q := by
  obtain ⟨e, he, -, hreg⟩ := exec_withRegs (s := s) (x := s.regs) i fun _ _ => rfl
  rw [he] at ht
  cases ht
  cases hr : e.reg with
  | none => exact s.readReg_commit_none e hr q
  | some w =>
    have hne : q ≠ w.1 := by
      rintro rfl
      simp [← hreg, hr] at hq
    rw [s.readReg_commit_some e w.1 w.2 hr q, if_neg fun h => hne h.1]

/-- A committed register is written alike over any register file. -/
theorem readReg_commit_withRegs {x : Regs} {e : Effect} {rd : Reg}
    (hreg : e.reg.map Prod.fst = some rd) :
    ({ s with regs := x }.commit e).readReg rd = (s.commit e).readReg rd := by
  obtain ⟨⟨q, v⟩, hr, rfl⟩ := Option.map_eq_some_iff.1 hreg
  rw [State.readReg_commit_some _ e q v hr, State.readReg_commit_some _ e q v hr]
  by_cases hq : q = .r0
  · subst hq
    rfl
  · simp [hq]

/-- Settles O43: the effect is fixed by the read registers, and names at most the one written. -/
theorem registersReadAndWritten : Obligations.RegistersReadAndWritten := by
  refine ⟨fun _ _ _ _ => exec_keeps_unwritten_reg, fun i s t t' x hread ht ht' => ?_⟩
  obtain ⟨e, he, he', hreg⟩ := exec_withRegs i hread
  rw [he] at ht
  rw [he'] at ht'
  cases ht
  cases ht'
  exact ⟨rfl, rfl, rfl, rfl, rfl, fun rd hrd => readReg_commit_withRegs (hreg.trans hrd)⟩

-- ## The next pc (R107, R200)

/-- What a branch leaves in the pc, by its flag. -/
theorem exec_branch_pc {i : Instr} {t : State} {taken : Bool} {imm : Word}
    (h : exec i s = s.branch taken imm) (ht : exec i s = .next t) :
    t.pc = (if taken then some imm else none).getD (s.pc + 4) := by
  rw [h] at ht
  cases ht
  cases taken <;> rfl

theorem stop_pc {t : State} (ht : exec .stop s = .next t) :
    t.pc = if s.params.stopPc = .hold then s.pc else s.pc + 2 := by
  cases ht
  cases s.params.stopPc <;> simp

/-- Settles O45: a branch jumps by its flag, STOP by P_STOP_PC, and the others advance. -/
theorem nextPc : Obligations.NextPc := by
  intro i s t ht
  cases i
  case bra | brz | brn | brc | brv =>
    rw [exec_branch_pc rfl ht]
    rfl
  case brnz imm =>
    rw [exec_branch_pc rfl ht, takenTarget]
    cases hz : s.flags.z <;> simp [Flags.get, hz, Instr.length]
  case stop =>
    rw [stop_pc ht]
    simp [takenTarget, Instr.length]
  case slti rd rs1 k =>
    cases ht
    cases k <;> simp [takenTarget, Instr.length, sltiLength]
  all_goals
    cases ht
    simp [takenTarget, Instr.length]

end Sys2Proof.Machine

/-! PROOFS. Steps (spec/40_execution_cycle.md, spec/20_memory.md): what every step keeps, what it
may change, and what it does not depend on. -/

namespace Sys2Proof.Machine

variable {s t : State}

-- ## What every step keeps

theorem step_commits (h : step s = .next t) : ∃ e, t = s.commit e := by
  obtain ⟨-, he⟩ := step_inversion h
  obtain ⟨e, hcommit⟩ := exec_commits s.fetch s
  rw [hcommit] at he
  cases he
  exact ⟨e, rfl⟩

/-- Settles O48: a commit does not write the parameters. -/
theorem paramsNeverChange : Obligations.ParamsNeverChange := by
  intro s t h
  obtain ⟨e, rfl⟩ := step_commits h
  rfl

/-- Settles O37: a commit writes at most one word of memory, which keeps the canonical form, and
leaves OPC alone. -/
theorem stepKeepsInvariant : Obligations.StepKeepsInvariant := by
  intro s t ⟨hmem, hopc⟩ h
  obtain ⟨e, rfl⟩ := step_commits h
  exact ⟨Memory.wf_apply s.mem e.mem hmem, hopc⟩

/-- Settles O38: the loader keeps the canonical form of the empty memory. -/
theorem resetMeetsInvariant : Obligations.ResetMeetsInvariant :=
  ⟨⟨State.wf_reset, reference_injective⟩, fun _ _ _ _ hp => ⟨State.wf_load _ _ State.wf_reset, hp⟩⟩

/-- Settles O40: loading no image changes nothing, and no byte is listed. -/
theorem resetIsReferenceLaunch : Obligations.ResetIsReferenceLaunch := ⟨rfl, rfl, fun _ => rfl⟩

/-- Settles O36: `step` looks at the run state first. -/
theorem haltedStepFaults : Obligations.HaltedStepFaults := by
  intro s hs
  rw [step, hs]

-- ## Memory (R35, R55, R153)

/-- Both bytes of an aligned word have its alignment. -/
theorem align_align_succ (a : Word) : align (align a + 1) = align a := by
  apply BitVec.eq_of_toNat_eq
  rw [align_toNat, align_succ_toNat, align_toNat]
  omega

/-- Settles O42: a SW changes the two bytes of one aligned word, and no other instruction any. -/
theorem onlyStoresChangeMemory : Obligations.OnlyStoresChangeMemory := by
  intro s t a h hbyte
  obtain ⟨-, he⟩ := step_inversion h
  rcases exec_mem_cases he with hmem | ⟨rs1, rs2, imm, hi, hmem⟩
  · exact absurd (by rw [State.readByte, State.readByte, hmem]) hbyte
  · refine ⟨s.effectiveAddress rs1 imm, by rw [hi, storeAddress], ?_⟩
    by_contra halign
    refine hbyte ((State.readByte_of_writeWord hmem a).trans ?_)
    have hlow : a ≠ align (s.effectiveAddress rs1 imm) + 1 := by
      rintro rfl
      exact halign (align_align_succ _)
    have hhigh : a ≠ align (s.effectiveAddress rs1 imm) := by
      rintro rfl
      exact halign (align_align _)
    rw [if_neg hlow, if_neg hhigh]

/-- Settles O53: the stored word is still there when LW reads it. -/
theorem storeThenLoad : Obligations.StoreThenLoad := by
  intro k s s₁ s₂ rs1 rs2 rd base imm imm₂ hf hstep hrun hs₂ hf₂ halign
  obtain ⟨t, ht, hset, -⟩ := exec_writeBack_spec (i := .lw rd base imm₂) (s := s₂) rfl
  rw [readWord_of_store_of_spares hf hstep hrun halign] at hset
  obtain ⟨-, hrd, -⟩ := hset
  exact ⟨t, by rw [step_of_running hs₂, hf₂, ht], hrd⟩

-- ## The fetch (R101 to R103)

/-- The instruction at the pc is decoded from two words, whether or not the second is used. -/
theorem State.fetch_eq (s : State) :
    s.fetch = decodeWords s.params s.fetchWord (s.readWord (s.pc + 2)) := by
  rw [State.fetch]
  cases hext : wordExtended s.params s.fetchWord with
  | true => rw [State.fetchImm_of_extended hext]
  | false => exact decodeWords_imm_unused _ _ _ _ hext

/-- Four bytes decode to the instruction of their two words. -/
theorem decode_four_bytes {p : Params} {b₀ b₁ b₂ b₃ : Byte} {rest : List Byte} {i : Instr}
    (h : decode p [b₀, b₁, b₂, b₃] = .ok (i, rest)) : i = decodeWords p (b₀ ++ b₁) (b₂ ++ b₃) := by
  cases hext : wordExtended p (b₀ ++ b₁) with
  | false =>
    rw [decode_plain p b₀ b₁ _ hext] at h
    cases h
    exact decodeWords_imm_unused _ _ _ _ hext
  | true =>
    rw [decode_extended p b₀ b₁ b₂ b₃ _ hext] at h
    cases h
    rfl

/-- Settles O33: the four bytes are the two words the fetch reads. -/
theorem stepRunsDecoded : Obligations.StepRunsDecoded := by
  intro s i rest hs h
  have hi : i = s.fetch := by
    rw [decode_four_bytes h, ← State.readWord_eq, ← State.readWord_eq, State.fetch_eq]
    rfl
  rw [step_of_running hs, hi]

theorem align_two_toNat (a : Word) : (align (a + 2)).toNat = ((align a).toNat + 2) % 65536 := by
  have ha : a.toNat < 65536 := a.isLt
  have hadd : (a + 2).toNat = (a.toNat + 2) % 65536 := BitVec.toNat_add a 2
  rw [align_toNat, align_toNat, hadd]
  omega

/-- The word after the one at `a` is another one, at the top of memory too. -/
theorem align_two_ne (a : Word) : align (a + 2) ≠ align a := by
  intro h
  have htwo := align_two_toNat a
  have hlt : (align a).toNat < 65536 := (align a).isLt
  rw [h] at htwo
  omega

/-- Settles O49: the second word is placed beside the first, and both are what the fetch reads. -/
theorem placedInstructionRuns : Obligations.PlacedInstructionRuns := by
  intro s nbits w
  have hfirst : (s.withFetchWord nbits w).fetchWord = tableFirstWord nbits w :=
    (Memory.readWord_writeWord_of_align_ne _ _ (align_two_ne s.pc).symm).trans
      (Memory.readWord_writeWord_of_align_eq _ _ rfl)
  have hsecond : (s.withFetchWord nbits w).readWord (s.pc + 2) = tableSecondWord nbits w :=
    Memory.readWord_writeWord_of_align_eq _ _ rfl
  rw [step_of_running (s.withFetchWord_run nbits w), State.fetch_eq, State.withFetchWord_pc, hfirst,
    hsecond, State.withFetchWord_params]

-- ## The pc and its bit 0 (R33, D10)

theorem align_add_of_even {d : Word} (hd : d.toNat % 2 = 0) (a : Word) :
    align (align a + d) = align (a + d) := by
  have ha : a.toNat < 65536 := a.isLt
  have hadd (b : Word) : (b + d).toNat = (b.toNat + d.toNat) % 65536 := BitVec.toNat_add b d
  apply BitVec.eq_of_toNat_eq
  rw [align_toNat, align_toNat, hadd, hadd, align_toNat]
  omega

theorem getLsbD_zero_add_of_even {d : Word} (hd : d.toNat % 2 = 0) (a : Word) :
    (a + d).getLsbD 0 = a.getLsbD 0 := by
  have hadd : (a + d).toNat = (a.toNat + d.toNat) % 65536 := BitVec.toNat_add a d
  rw [← BitVec.testBit_toNat, ← BitVec.testBit_toNat, Nat.testBit_zero, Nat.testBit_zero, hadd]
  congr 2
  omega

theorem fetch_length_even (s : State) : s.fetch.length.toNat % 2 = 0 := by
  rw [State.fetch, decodeWords_length]
  split_ifs <;> decide

theorem State.fetch_withPc_align (s : State) : { s with pc := align s.pc }.fetch = s.fetch := by
  have hword : Memory.readWord s.mem (align s.pc) = Memory.readWord s.mem s.pc :=
    Memory.readWord_congr (align_align s.pc) s.mem
  have himm : Memory.readWord s.mem (align s.pc + 2) = Memory.readWord s.mem (s.pc + 2) :=
    Memory.readWord_congr (align_add_of_even rfl s.pc) s.mem
  rw [State.fetch_eq, State.fetch_eq]
  simp only [State.fetchWord, State.readWord, hword, himm]

/-- Only the next pc depends on the pc. -/
theorem exec_withPc (i : Instr) (c : Word) (h : exec i s = .next t) :
    ∃ c', exec i { s with pc := c } = .next { t with pc := c' } := by
  cases i
  all_goals
    cases h
    exact ⟨_, rfl⟩

/-- Settles O46: the fetch aligns, an effect names the pc only as the next one, and lengths are
even. -/
theorem oddPcRunsAligned : Obligations.OddPcRunsAligned := by
  intro s t h
  obtain ⟨hs, he⟩ := step_inversion h
  obtain ⟨c', he'⟩ := exec_withPc s.fetch (align s.pc) he
  have hpc := nextPc _ _ _ he
  have hpc' := nextPc _ _ _ he'
  have heven := fetch_length_even s
  refine ⟨fun hnone => ?_, { t with pc := c' }, ?_, rfl, ?_⟩
  · rw [hpc, hnone, Option.getD_none]
    split_ifs
    · rfl
    · exact getLsbD_zero_add_of_even heven s.pc
  · rw [step_of_running (s := { s with pc := align s.pc }) hs, State.fetch_withPc_align, he']
  · rw [hpc', hpc]
    cases takenTarget s.flags s.fetch with
    | some target => rfl
    | none =>
      simp only [Option.getD_none]
      split_ifs
      · exact align_align s.pc
      · exact align_add_of_even heven s.pc

-- ## Free draws (R110)

/-- Completes in the same state with the same draw counter, whatever that is. -/
def UsesNoDraw (s : State) (a b : Result) (k : Nat) : Prop :=
  ∃ t, a = .next t ∧ b = .next { t with draws := k } ∧ t.draws = s.draws

theorem State.writeBack_usesNoDraw {cc cc' : FlagWrite} {k : Nat} (rd : Reg) (v len : Word)
    (hcc : cc.draws = s.draws) (hcc' : cc' = ⟨cc.flags, k⟩) :
    UsesNoDraw s (s.writeBack rd v cc len) ({ s with draws := k }.writeBack rd v cc' len) k := by
  subst hcc'
  exact ⟨_, rfl, rfl, hcc⟩

theorem State.logicFlags_withDraws (hcv : s.params.logicCv ≠ .havoc) (r : Word) (k : Nat) :
    (s.logicFlags r).draws = s.draws ∧
      { s with draws := k }.logicFlags r = ⟨(s.logicFlags r).flags, k⟩ := by
  unfold State.logicFlags
  cases h : s.params.logicCv
  case havoc => exact absurd h hcv
  all_goals exact ⟨rfl, rfl⟩

theorem exec_withDraws (i : Instr) (hfu : s.params.flagsUnlisted = .preserve)
    (hcv : s.params.logicCv ≠ .havoc) (k : Nat) :
    UsesNoDraw s (exec i s) (exec i { s with draws := k }) k := by
  cases i
  case and | or | xor =>
    obtain ⟨hdraws, hflags⟩ := State.logicFlags_withDraws hcv _ k
    exact State.writeBack_usesNoDraw _ _ _ hdraws hflags
  case not | addi | li | slt | slti | sll | slli | srl | srli | sra | srai =>
    refine State.writeBack_usesNoDraw _ _ _ ?_ ?_
    · rw [State.unlistedFlags_of_preserve hfu, State.keepFlags_draws]
    · rw [State.unlistedFlags_of_preserve hfu,
        State.unlistedFlags_of_preserve (s := { s with draws := k }) hfu]
      rfl
  all_goals exact ⟨_, rfl, rfl, rfl⟩

/-- Settles O47: the fetch does not see the counter, and without havoc no flag write uses it. -/
theorem referenceStepUsesNoDraw : Obligations.ReferenceStepUsesNoDraw := by
  intro s t k hfu hcv h
  obtain ⟨hs, he⟩ := step_inversion h
  obtain ⟨u, hu, hu', hdraws⟩ := exec_withDraws s.fetch hfu hcv k
  cases hu.symm.trans he
  exact ⟨hdraws, (step_of_running (s := { s with draws := k }) hs).trans hu'⟩

-- ## The host (R231, R260, R262)

/-- Settles O55, by induction on the step limit. -/
theorem runLoopStopsBetweenSteps : Obligations.RunLoopStopsBetweenSteps := by
  intro stop limit
  induction limit with
  | zero => exact fun s => ⟨s, 0, rfl, le_rfl, .refl s, .inr (.inr rfl)⟩
  | succ n ih =>
    intro s
    cases hs : s.run with
    | halted => exact ⟨s, 0, by rw [runLoop, hs], Nat.zero_le _, .refl s, .inl hs⟩
    | running =>
      cases hstop : stop s with
      | true =>
        exact ⟨s, 0, by simp [runLoop, hs, hstop], Nat.zero_le _, .refl s, .inr (.inl hstop)⟩
      | false =>
        obtain ⟨u, hu⟩ : ∃ u, step s = .next u := by
          rw [step_of_running hs]
          exact exec_total s.fetch s
        obtain ⟨t, k, ht, hk, hrun, hend⟩ := ih u
        refine ⟨t, k + 1, ?_, Nat.succ_le_succ hk, .step k s u t ⟨hs, hstop⟩ hu hrun, ?_⟩
        · simp [runLoop, hs, hstop, hu, ht]
        · exact hend.imp_right (Or.imp_right (congrArg (· + 1)))

/-- Settles O56: the eight indices are the register fields. -/
theorem registerInspection : Obligations.RegisterInspection := by
  refine fun s k => ⟨rfl, fun r => ?_, fun hk => if_neg (Nat.not_lt.2 hk)⟩
  rw [inspectRegister, if_pos r.toBits.isLt, BitVec.ofNat_toNat, BitVec.setWidth_eq,
    Reg.ofBits_toBits]

/-- Settles O57: a flag is read back as put, and each branch ends in `branch` on its predicate. -/
theorem branchPredicates : Obligations.BranchPredicates := by
  refine ⟨fun f b g => by simp, fun f b g h hne => by simp [hne], fun _ => ⟨rfl, rfl⟩,
    fun f g => ⟨.rfl, by simp⟩, fun s imm => ?_⟩
  simp only [List.forall_mem_cons, List.not_mem_nil, false_implies, implies_true, and_true]
  exact ⟨onlyJumps_of_branch rfl .rfl, onlyJumps_of_branch rfl .rfl, onlyJumps_of_branch rfl .rfl,
    onlyJumps_of_branch rfl .rfl, onlyJumps_of_branch rfl .rfl, onlyJumps_of_branch rfl .rfl⟩

end Sys2Proof.Machine

/-! PROOFS. The assembly lines (spec/30_encoding.md R85): what each format
accepts, and that lines and instructions agree. -/

namespace Sys2Proof.Machine

-- ## Operands in the order of each format

theorem asmRri_toNat (make : Reg → Reg → Word → Instr) (a b : Reg) (imm : Word) :
    asmRri make [.reg a, .reg b, .imm imm.toNat] = some (make a b imm) := by
  rw [asmRri, if_pos imm.isLt, BitVec.ofNat_toNat, BitVec.setWidth_eq]

theorem asmRsh_toNat (make : Reg → Reg → BitVec 3 → Instr) (a b : Reg) (k : BitVec 3) :
    asmRsh make [.reg a, .reg b, .imm k.toNat] = some (make a b k) := by
  rw [asmRsh, if_pos k.isLt, BitVec.ofNat_toNat, BitVec.setWidth_eq]

theorem asmTarget_toNat (make : Word → Instr) (imm : Word) :
    asmTarget make [.imm imm.toNat] = some (make imm) := by
  rw [asmTarget, if_pos imm.isLt, BitVec.ofNat_toNat, BitVec.setWidth_eq]

theorem assembleLine_li_toNat (p : Params) (rd : Reg) (imm : Word) :
    assembleLine p ⟨.li, [.reg rd, .imm imm.toNat]⟩ = some (.li rd imm) := by
  simp only [assembleLine]
  rw [if_pos imm.isLt, BitVec.ofNat_toNat, BitVec.setWidth_eq]

/-- R78: an amount above 7 is refused. -/
theorem asmRsh_number (make : Reg → Reg → BitVec 3 → Instr) (a b : Reg) (n : Nat) :
    asmRsh make [.reg a, .reg b, .imm n]
      = if n ≤ 7 then some (make a b (BitVec.ofNat 3 n)) else none :=
  if_congr Nat.lt_succ_iff rfl rfl

/-- Well formed, and with a line of its own. -/
def Writable (p : Params) (i : Instr) : Prop := i.wellFormed p = true ∧ asmLine i ≠ none

section

variable {p : Params} {ops : List AsmOperand} {i : Instr}

theorem writable_of_asmRrr {make : Reg → Reg → Reg → Instr}
    (h : asmRrr make ops = some i) (hmake : ∀ a b c, Writable p (make a b c)) :
    Writable p i := by
  unfold asmRrr at h
  split at h <;> cases h
  exact hmake _ _ _

theorem writable_of_asmRr {make : Reg → Reg → Instr}
    (h : asmRr make ops = some i) (hmake : ∀ a b, Writable p (make a b)) :
    Writable p i := by
  unfold asmRr at h
  split at h <;> cases h
  exact hmake _ _

theorem writable_of_asmRsh {make : Reg → Reg → BitVec 3 → Instr}
    (h : asmRsh make ops = some i) (hmake : ∀ a b k, Writable p (make a b k)) :
    Writable p i := by
  unfold asmRsh at h
  split at h
  · split_ifs at h
    cases h
    exact hmake _ _ _
  · cases h

theorem writable_of_asmRri {make : Reg → Reg → Word → Instr}
    (h : asmRri make ops = some i) (hmake : ∀ a b imm, Writable p (make a b imm)) :
    Writable p i := by
  unfold asmRri at h
  split at h
  · split_ifs at h
    cases h
    exact hmake _ _ _
  · cases h

theorem writable_of_asmTarget {make : Word → Instr}
    (h : asmTarget make ops = some i) (hmake : ∀ imm, Writable p (make imm)) :
    Writable p i := by
  unfold asmTarget at h
  split at h
  · split_ifs at h
    cases h
    exact hmake _
  · cases h

end

-- ## Lines and instructions

theorem asmLine_eq_none_iff (i : Instr) : asmLine i = none ↔ ∃ op6, i = .unrecognized op6 := by
  cases i
  case slti rd rs1 k => cases k <;> simp [asmLine]
  all_goals simp [asmLine]

theorem assembleLine_asmLine {p : Params} {i : Instr} {l : AsmLine} (hi : i.wellFormed p = true)
    (h : asmLine i = some l) : assembleLine p l = some i := by
  cases i
  case addi rd rs1 imm =>
    have hrs1 : rs1 ≠ .r0 := by simpa [Instr.wellFormed] using hi
    cases h
    simp only [assembleLine, asmRri_toNat, if_neg hrs1]
  case li rd imm =>
    cases h
    exact assembleLine_li_toNat p rd imm
  case slti rd rs1 k =>
    have hform : k.form = p.sltiForm := by simpa [Instr.wellFormed] using hi
    cases k
    all_goals
      cases h
      simp only [assembleLine, ← hform, SltiOperand.form]
    · exact asmRri_toNat _ rd rs1 _
    · exact asmRsh_toNat _ rd rs1 _
  case lw | sw =>
    cases h
    exact asmRri_toNat _ _ _ _
  case slli | srli | srai =>
    cases h
    exact asmRsh_toNat _ _ _ _
  case bra | brz | brnz | brn | brc | brv =>
    cases h
    exact asmTarget_toNat _ _
  case unrecognized => cases h
  all_goals
    cases h
    rfl

theorem writable_addi_or_li (p : Params) (rd rs1 : Reg) (imm : Word) :
    Writable p (if rs1 = .r0 then .li rd imm else .addi rd rs1 imm) := by
  split_ifs with h
  · exact ⟨rfl, Option.some_ne_none _⟩
  · exact ⟨by simpa [Instr.wellFormed] using h, Option.some_ne_none _⟩

theorem writable_slti {p : Params} {k : SltiOperand} (hform : p.sltiForm = k.form) (rd rs1 : Reg) :
    Writable p (.slti rd rs1 k) := by
  refine ⟨by simp [Instr.wellFormed, hform], ?_⟩
  cases k <;> exact Option.some_ne_none _

theorem assembleLine_writable {p : Params} {l : AsmLine} {i : Instr}
    (h : assembleLine p l = some i) : Writable p i := by
  obtain ⟨m, ops⟩ := l
  cases m with
  | li =>
    simp only [assembleLine] at h
    split at h
    · split_ifs at h
      cases h
      exact ⟨rfl, Option.some_ne_none _⟩
    · cases h
  | op o =>
    cases o
    case add | sub | and | or | xor | slt | sll | srl | sra =>
      exact writable_of_asmRrr h fun _ _ _ => ⟨rfl, Option.some_ne_none _⟩
    case not | mv => exact writable_of_asmRr h fun _ _ => ⟨rfl, Option.some_ne_none _⟩
    case slli | srli | srai => exact writable_of_asmRsh h fun _ _ _ => ⟨rfl, Option.some_ne_none _⟩
    case addi =>
      simp only [assembleLine] at h
      exact writable_of_asmRri h (writable_addi_or_li p)
    case lw | sw => exact writable_of_asmRri h fun _ _ _ => ⟨rfl, Option.some_ne_none _⟩
    case slti =>
      cases hform : p.sltiForm
      all_goals simp only [assembleLine, hform] at h
      · exact writable_of_asmRri h fun _ _ _ => writable_slti hform _ _
      · exact writable_of_asmRsh h fun _ _ _ => writable_slti hform _ _
    case bra | brz | brnz | brn | brc | brv =>
      exact writable_of_asmTarget h fun _ => ⟨rfl, Option.some_ne_none _⟩
    case stop =>
      simp only [assembleLine] at h
      split_ifs at h
      cases h
      exact ⟨rfl, Option.some_ne_none _⟩

/-- Settles O32: each format is read back in the order it is written in. -/
theorem assemblyRoundTrip : Obligations.AssemblyRoundTrip := by
  refine ⟨fun _ _ _ => assembleLine_asmLine, fun _ _ _ => assembleLine_writable,
    asmLine_eq_none_iff, fun p a b c imm n => ?_⟩
  have hshift (make : Reg → Reg → BitVec 3 → Instr) := asmRsh_number make a b n
  have htarget (make : Word → Instr) := asmTarget_toNat make imm
  simp only [List.forall_mem_cons, List.not_mem_nil, false_implies, implies_true, and_true]
  refine ⟨⟨rfl, rfl, rfl, rfl, rfl, rfl, rfl, rfl, rfl⟩, ⟨rfl, rfl⟩,
    ⟨hshift _, hshift _, hshift _⟩, ?addi, asmRri_toNat _ a b imm, fun hform => ?imm16,
    fun hform => ?field3, assembleLine_li_toNat p a imm, rfl, ?sw,
    ⟨htarget _, htarget _, htarget _, htarget _, htarget _, htarget _⟩, rfl⟩
  case addi | sw => simp only [assembleLine, asmRri_toNat]
  case imm16 => simp only [assembleLine, hform, asmRri_toNat]
  case field3 => simp only [assembleLine, hform, asmRsh_number]

end Sys2Proof.Machine
